-- ==== Sys2Proof/Word.lean ====
section
/-! DEFINITION. The word types of the core (spec/00_scope.md R11, R12; spec/30_encoding.md R93). -/

namespace Sys2Proof

/-- A byte: 8 bits, unsigned (R11). -/
abbrev Byte := BitVec 8

/-- A coordinate or size as the operation port carries it: a 16-bit two's-complement field,
`COORD_BITS = 16` (R93). -/
abbrev Coord := BitVec 16

end Sys2Proof
end

