-- ==== Sys2Proof/Syntax/Port.lean ====
section
/-! DEFINITION. The Command values of the codec (R80, R83) and what the host lays on the operation port (R90). -/

namespace Sys2Proof

/-- A Command value: one of the twenty variants of R83, its parameter a bounded type (R84, R87), so that a value
out of range cannot be built. -/
inductive Command where
  | setColumnLow (a : BitVec 4)
  | setColumnHigh (a : BitVec 3)
  | setPageAddress (p : BitVec 4)
  | setContrast (v : BitVec 8)
  | setMultiplexRatio (m : BitVec 7)
  | setDisplayOffset (o : BitVec 7)
  | setClockDivide (d : BitVec 8)
  | setChargePeriod (c : BitVec 8)
  | setVcomLevel (v : BitVec 8)
  | setDisplayStartLine (l : BitVec 7)
  | setSegmentRemap (r : BitVec 1)
  | setScanDirection (d : BitVec 1)
  | entireDisplay (e : BitVec 1)
  | normalReverse (r : BitVec 1)
  | displayOnOff (o : BitVec 1)
  | readModifyWrite
  | endCmd
  | nop
  | readId
  | setDcDc (s : BitVec 4)
deriving DecidableEq, Repr

/-- Which of the two tables of 30_encoding.md a request's bytes are read by: the operations (`OPSEL`, R90) or the
commands (R83). Log 3. -/
inductive PortKind where
  | operation
  | command
deriving DecidableEq, Repr

/-- One request of the host: its bytes are exactly one operation or exactly one command. Log 2, log 3. -/
structure Request where
  kind : PortKind
  bytes : List Byte
deriving DecidableEq, Repr

/-- Why a request's bytes are no instruction (R86, R87, R91, R206). -/
inductive DecodeError where
  /-- `OPSEL` names no operation (R91). -/
  | reservedOpsel (code : Nat)
  /-- Byte 0 is of no command variant (R86, U12). -/
  | invalidCommand (byte0 : Byte)
  /-- A command's parameter byte is outside the range of its variant (R87, R206 (3)). -/
  | parameterRange (byte0 byte1 : Byte)
  /-- The bytes are not the operands the operation or command takes. -/
  | operandForm
deriving DecidableEq, Repr

/-- What a decoder answers. -/
inductive Decoded (α : Type) where
  | ok (a : α)
  | error (e : DecodeError)
deriving DecidableEq, Repr

end Sys2Proof
end

