-- ==== Sys2Proof/Syntax.lean ====
section
/-! DEFINITION. The instructions: one constructor for each row of spec/opcode_table.json, in the table's order
(R83 for the twenty commands, R90 for the eleven operations). -/

namespace Sys2Proof

inductive Instr where
  -- the twenty command rows (R111 to R130)
  | setColumnLow (a : BitVec 4)
  | setColumnHigh (a : BitVec 3)
  | setPageAddress (p : BitVec 4)
  | setContrast (v : BitVec 8)
  | setMultiplexRatio (m : BitVec 7)
  | setDisplayOffset (o : BitVec 7)
  | setClockDivide (d : BitVec 8)
  | setChargePeriod (c : BitVec 8)
  | setVcomLevel (v : BitVec 8)
  | setDisplayStartLine (l : BitVec 7)
  | setSegmentRemap (r : BitVec 1)
  | setScanDirection (d : BitVec 1)
  | entireDisplay (e : BitVec 1)
  | normalReverse (r : BitVec 1)
  | displayOnOff (o : BitVec 1)
  | readModifyWrite
  | endCmd
  | nop
  | readId
  | setDcDc (s : BitVec 4)
  -- the eleven operation rows (R143 to R195); operands as R90 and R93 give them
  | opInitialize
  | deinitialize
  | clear
  | flush
  | setPixel (x y : Coord) (on : Bool)
  | drawLine (x0 y0 x1 y1 : Coord) (on : Bool)
  | drawCircle (x0 y0 r : Coord) (on : Bool)
  | drawBitmap (x y w h : Coord) (bitmap : List Byte) (on : Bool)
  | drawChar (x y : Coord) (c : Byte)
  | drawString (x y : Coord) (n : Nat) (codes : List Byte)
  | sendCommand (cmd : Command)
deriving DecidableEq, Repr

/-- The command row that stands for a Command value. -/
def Instr.ofCommand : Command → Instr
  | .setColumnLow a => .setColumnLow a
  | .setColumnHigh a => .setColumnHigh a
  | .setPageAddress p => .setPageAddress p
  | .setContrast v => .setContrast v
  | .setMultiplexRatio m => .setMultiplexRatio m
  | .setDisplayOffset o => .setDisplayOffset o
  | .setClockDivide d => .setClockDivide d
  | .setChargePeriod c => .setChargePeriod c
  | .setVcomLevel v => .setVcomLevel v
  | .setDisplayStartLine l => .setDisplayStartLine l
  | .setSegmentRemap r => .setSegmentRemap r
  | .setScanDirection d => .setScanDirection d
  | .entireDisplay e => .entireDisplay e
  | .normalReverse r => .normalReverse r
  | .displayOnOff o => .displayOnOff o
  | .readModifyWrite => .readModifyWrite
  | .endCmd => .endCmd
  | .nop => .nop
  | .readId => .readId
  | .setDcDc s => .setDcDc s

/-- `display_on()` (R95 (b)). -/
def Instr.displayOn : Instr := .sendCommand (.displayOnOff 1)

/-- `display_off()` (R95 (b)). -/
def Instr.displayOff : Instr := .sendCommand (.displayOnOff 0)

/-- `set_pixel(x,y)` with `on` left out (R95 (a)). -/
def Instr.setPixelDefault (x y : Coord) : Instr := .setPixel x y true

end Sys2Proof
end

