-- ==== Sys2Proof/WellFormed.lean ====
section
/-! DEFINITION. Which instructions the operation port can carry, and which meet the host's contract on operand
memory. Command parameters and coordinates are bounded by their types (R84, R87, R93), so nothing is left to
check for them. -/

namespace Sys2Proof

/-- The instruction fits the port: the length of a string has 32 bits there (log 3). -/
def WellFormed : Instr → Bool
  | .drawString _ _ n _ => decide (n < 2 ^ 32)
  | _ => true

/-- The host keeps its part (R52, R181 (g), R240): the bitmap holds `h * ((w+7)/8)` bytes and the string its `n`
codes. An instruction outside the contract still runs (U6). -/
def InContract : Instr → Bool
  | .drawBitmap _ _ w h bitmap _ =>
    decide (w.toInt ≤ 0) || decide (h.toInt ≤ 0) ||
      decide (h.toInt.toNat * ((w.toInt.toNat + 7) / 8) ≤ bitmap.length)
  | .drawString _ _ n codes => decide (n ≤ codes.length)
  | _ => true

end Sys2Proof
end

