-- ==== Sys2Proof/Decode.lean ====
section
/-! DEFINITION. The opcodes (R83), the decoders, total on any bytes, and the encoders: the Command Codec `encode`
(R110 to R131) and the encoding of a request on the operation port (R90, R93; layout of operands: log 3). -/

namespace Sys2Proof

/-! ### The opcodes `OPC_*` of R83 (decision D4; log 6) -/

def opcColLo : Byte := 0x00
def opcColHi : Byte := 0x10
def opcPage : Byte := 0xB0
def opcContrast : Byte := 0x81
def opcMux : Byte := 0xA8
def opcOffset : Byte := 0xD3
def opcClock : Byte := 0xD5
def opcCharge : Byte := 0xD9
def opcVcom : Byte := 0xDB
def opcStartLine : Byte := 0xDC
def opcRemap : Byte := 0xA0
def opcScan : Byte := 0xC0
def opcEntire : Byte := 0xA4
def opcReverse : Byte := 0xA6
def opcDisplay : Byte := 0xAE
def opcRmw : Byte := 0xE0
def opcEnd : Byte := 0xEE
def opcNop : Byte := 0xE3
def opcDcdc : Byte := 0xAD
def opcDcdcArg : Byte := 0x80

/-! ### Decoding commands (R83, R88, R96) -/

/-- A one-byte command, by mask and match of opcode_table.json. -/
def decodeOneByte (b : Byte) : Decoded Command :=
  if b &&& 0xF0 = opcColLo then .ok (.setColumnLow (b.extractLsb' 0 4))
  else if b &&& 0xF8 = opcColHi then .ok (.setColumnHigh (b.extractLsb' 0 3))
  else if b &&& 0xF0 = opcPage then .ok (.setPageAddress (b.extractLsb' 0 4))
  else if b &&& 0xFE = opcRemap then .ok (.setSegmentRemap (b.extractLsb' 0 1))
  else if b &&& 0xF7 = opcScan then .ok (.setScanDirection (b.extractLsb' 3 1))
  else if b &&& 0xFE = opcEntire then .ok (.entireDisplay (b.extractLsb' 0 1))
  else if b &&& 0xFE = opcReverse then .ok (.normalReverse (b.extractLsb' 0 1))
  else if b &&& 0xFE = opcDisplay then .ok (.displayOnOff (b.extractLsb' 0 1))
  else if b = opcRmw then .ok .readModifyWrite
  else if b = opcEnd then .ok .endCmd
  else if b = opcNop then .ok .nop
  else .error (.invalidCommand b)

/-- Byte 0 is the opcode of a two-byte command (format K2, R80). -/
def isTwoByteOpcode (b : Byte) : Bool :=
  b == opcContrast || b == opcMux || b == opcOffset || b == opcClock || b == opcCharge || b == opcVcom ||
    b == opcStartLine || b == opcDcdc

/-- A 7-bit parameter byte: bit 7 is 0 (R81); with bit 7 set it is refused, never masked (R87). -/
def decodeSeven (b p : Byte) (mk : BitVec 7 → Command) : Decoded Command :=
  if p &&& 0x80 = 0 then .ok (mk (p.extractLsb' 0 7)) else .error (.parameterRange b p)

/-- A two-byte command: opcode `b`, parameter byte `p` (R81). -/
def decodeTwoByte (b p : Byte) : Decoded Command :=
  if b = opcContrast then .ok (.setContrast p)
  else if b = opcMux then decodeSeven b p .setMultiplexRatio
  else if b = opcOffset then decodeSeven b p .setDisplayOffset
  else if b = opcClock then .ok (.setClockDivide p)
  else if b = opcCharge then .ok (.setChargePeriod p)
  else if b = opcVcom then .ok (.setVcomLevel p)
  else if b = opcStartLine then decodeSeven b p .setDisplayStartLine
  else if b = opcDcdc then
    if p &&& 0xF0 = opcDcdcArg then .ok (.setDcDc (p.extractLsb' 0 4)) else .error (.parameterRange b p)
  else .error (.invalidCommand b)

/-- One command from exactly its bytes; no byte at all is `ReadId` (R129). -/
def decodeCommand : List Byte → Decoded Command
  | [] => .ok .readId
  | [b] => if isTwoByteOpcode b then .error .operandForm else decodeOneByte b
  | [b, p] =>
    if isTwoByteOpcode b then decodeTwoByte b p
    else match decodeOneByte b with
      | .ok _ => .error .operandForm
      | .error e => .error e
  | _ => .error .operandForm

/-- The test decoder of R88: a whole command stream, the length of each command told from its byte 0 (R82). -/
def decodeStream : List Byte → Decoded (List Command)
  | [] => .ok []
  | [b] =>
    match decodeCommand [b] with
    | .ok c => .ok [c]
    | .error e => .error e
  | b :: p :: rest =>
    if isTwoByteOpcode b then
      match decodeTwoByte b p, decodeStream rest with
      | .ok c, .ok cs => .ok (c :: cs)
      | .error e, _ => .error e
      | _, .error e => .error e
    else
      match decodeOneByte b, decodeStream (p :: rest) with
      | .ok c, .ok cs => .ok (c :: cs)
      | .error e, _ => .error e
      | _, .error e => .error e

/-! ### Decoding requests (R90, R93) -/

/-- A 16-bit field, most significant byte first (log 3). -/
def coordOfBytes (hi lo : Byte) : Coord := hi ++ lo

/-- The length field of a string, most significant byte first (log 3). -/
def lengthOfBytes (a b c d : Byte) : Nat := (a ++ b ++ c ++ d : BitVec 32).toNat

/-- The `on` operand: one bit, in a byte that holds 0 or 1 (R93, log 3). -/
def decodeBit (b : Byte) (mk : Bool → Instr) : Decoded Instr :=
  if b = 0 then .ok (mk false) else if b = 1 then .ok (mk true) else .error .operandForm

/-- An operation that takes no operand. -/
def decodeBare (args : List Byte) (i : Instr) : Decoded Instr :=
  match args with
  | [] => .ok i
  | _ :: _ => .error .operandForm

def decodeSetPixel : List Byte → Decoded Instr
  | [xh, xl, yh, yl, on] => decodeBit on (.setPixel (coordOfBytes xh xl) (coordOfBytes yh yl))
  | _ => .error .operandForm

def decodeDrawLine : List Byte → Decoded Instr
  | [ah, al, bh, bl, ch, cl, dh, dl, on] =>
    decodeBit on (.drawLine (coordOfBytes ah al) (coordOfBytes bh bl) (coordOfBytes ch cl) (coordOfBytes dh dl))
  | _ => .error .operandForm

def decodeDrawCircle : List Byte → Decoded Instr
  | [xh, xl, yh, yl, rh, rl, on] =>
    decodeBit on (.drawCircle (coordOfBytes xh xl) (coordOfBytes yh yl) (coordOfBytes rh rl))
  | _ => .error .operandForm

/-- The bitmap's bytes are the rest of the request, as many as the host hands over (log 3). -/
def decodeDrawBitmap : List Byte → Decoded Instr
  | xh :: xl :: yh :: yl :: wh :: wl :: hh :: hl :: on :: bitmap =>
    decodeBit on
      (.drawBitmap (coordOfBytes xh xl) (coordOfBytes yh yl) (coordOfBytes wh wl) (coordOfBytes hh hl) bitmap)
  | _ => .error .operandForm

def decodeDrawChar : List Byte → Decoded Instr
  | [xh, xl, yh, yl, c] => .ok (.drawChar (coordOfBytes xh xl) (coordOfBytes yh yl) c)
  | _ => .error .operandForm

/-- The string's codes are the rest of the request, as many as the host hands over (log 3). -/
def decodeDrawString : List Byte → Decoded Instr
  | xh :: xl :: yh :: yl :: n3 :: n2 :: n1 :: n0 :: codes =>
    .ok (.drawString (coordOfBytes xh xl) (coordOfBytes yh yl) (lengthOfBytes n3 n2 n1 n0) codes)
  | _ => .error .operandForm

/-- The `cmd` operand is the bytes of one command (R87; 95_test_vectors.md P3). -/
def decodeSendCommand (args : List Byte) : Decoded Instr :=
  match decodeCommand args with
  | .ok c => .ok (.sendCommand c)
  | .error e => .error e

/-- An operation: byte 0 holds `OPSEL` in its low four bits (R90); any other value is reserved (R91). -/
def decodeOperation : List Byte → Decoded Instr
  | [] => .error .operandForm
  | op :: args =>
    match op.toNat with
    | 0 => decodeBare args .opInitialize
    | 1 => decodeBare args .deinitialize
    | 2 => decodeBare args .clear
    | 3 => decodeBare args .flush
    | 4 => decodeSetPixel args
    | 5 => decodeDrawLine args
    | 6 => decodeDrawCircle args
    | 7 => decodeDrawBitmap args
    | 8 => decodeDrawChar args
    | 9 => decodeDrawString args
    | 10 => decodeSendCommand args
    | code => .error (.reservedOpsel code)

/-- The instruction a request carries, or why it carries none. -/
def decode (r : Request) : Decoded Instr :=
  match r.kind with
  | .operation => decodeOperation r.bytes
  | .command =>
    match decodeCommand r.bytes with
    | .ok c => .ok (Instr.ofCommand c)
    | .error e => .error e

/-! ### Encoding -/

/-- The Command Codec `encode : Command -> ByteSequence` (R110), one arm per rule R111 to R130. -/
def encodeCommand : Command → List Byte
  | .setColumnLow a => [opcColLo ||| a.setWidth 8]
  | .setColumnHigh a => [opcColHi ||| a.setWidth 8]
  | .setPageAddress p => [opcPage ||| p.setWidth 8]
  | .setContrast v => [opcContrast, v]
  | .setMultiplexRatio m => [opcMux, m.setWidth 8]
  | .setDisplayOffset o => [opcOffset, o.setWidth 8]
  | .setClockDivide d => [opcClock, d]
  | .setChargePeriod c => [opcCharge, c]
  | .setVcomLevel v => [opcVcom, v]
  | .setDisplayStartLine l => [opcStartLine, l.setWidth 8]
  | .setSegmentRemap r => [opcRemap ||| r.setWidth 8]
  | .setScanDirection d => [opcScan ||| (d.setWidth 8 <<< 3)]
  | .entireDisplay e => [opcEntire ||| e.setWidth 8]
  | .normalReverse r => [opcReverse ||| r.setWidth 8]
  | .displayOnOff o => [opcDisplay ||| o.setWidth 8]
  | .readModifyWrite => [opcRmw]
  | .endCmd => [opcEnd]
  | .nop => [opcNop]
  | .readId => []
  | .setDcDc s => [opcDcdc, opcDcdcArg ||| s.setWidth 8]

/-- A 16-bit field as bytes, most significant first (log 3). -/
def bytesOfCoord (v : Coord) : List Byte := [v.extractLsb' 8 8, v.extractLsb' 0 8]

/-- The length field of a string as bytes, most significant first (log 3). -/
def bytesOfLength (n : Nat) : List Byte :=
  [BitVec.ofNat 8 (n / 2 ^ 24), BitVec.ofNat 8 (n / 2 ^ 16), BitVec.ofNat 8 (n / 2 ^ 8), BitVec.ofNat 8 n]

/-- The `on` operand as a byte. -/
def byteOfBit (on : Bool) : Byte := if on then 1 else 0

/-- The request that carries an instruction: a command row as its command bytes, an operation as its `OPSEL` byte
followed by its operands in the order of R90 (log 3). -/
def encode : Instr → Request
  | .setColumnLow a => ⟨.command, encodeCommand (.setColumnLow a)⟩
  | .setColumnHigh a => ⟨.command, encodeCommand (.setColumnHigh a)⟩
  | .setPageAddress p => ⟨.command, encodeCommand (.setPageAddress p)⟩
  | .setContrast v => ⟨.command, encodeCommand (.setContrast v)⟩
  | .setMultiplexRatio m => ⟨.command, encodeCommand (.setMultiplexRatio m)⟩
  | .setDisplayOffset o => ⟨.command, encodeCommand (.setDisplayOffset o)⟩
  | .setClockDivide d => ⟨.command, encodeCommand (.setClockDivide d)⟩
  | .setChargePeriod c => ⟨.command, encodeCommand (.setChargePeriod c)⟩
  | .setVcomLevel v => ⟨.command, encodeCommand (.setVcomLevel v)⟩
  | .setDisplayStartLine l => ⟨.command, encodeCommand (.setDisplayStartLine l)⟩
  | .setSegmentRemap r => ⟨.command, encodeCommand (.setSegmentRemap r)⟩
  | .setScanDirection d => ⟨.command, encodeCommand (.setScanDirection d)⟩
  | .entireDisplay e => ⟨.command, encodeCommand (.entireDisplay e)⟩
  | .normalReverse r => ⟨.command, encodeCommand (.normalReverse r)⟩
  | .displayOnOff o => ⟨.command, encodeCommand (.displayOnOff o)⟩
  | .readModifyWrite => ⟨.command, encodeCommand .readModifyWrite⟩
  | .endCmd => ⟨.command, encodeCommand .endCmd⟩
  | .nop => ⟨.command, encodeCommand .nop⟩
  | .readId => ⟨.command, encodeCommand .readId⟩
  | .setDcDc s => ⟨.command, encodeCommand (.setDcDc s)⟩
  | .opInitialize => ⟨.operation, [0]⟩
  | .deinitialize => ⟨.operation, [1]⟩
  | .clear => ⟨.operation, [2]⟩
  | .flush => ⟨.operation, [3]⟩
  | .setPixel x y on => ⟨.operation, 4 :: (bytesOfCoord x ++ bytesOfCoord y ++ [byteOfBit on])⟩
  | .drawLine x0 y0 x1 y1 on =>
    ⟨.operation, 5 :: (bytesOfCoord x0 ++ bytesOfCoord y0 ++ bytesOfCoord x1 ++ bytesOfCoord y1 ++ [byteOfBit on])⟩
  | .drawCircle x0 y0 r on =>
    ⟨.operation, 6 :: (bytesOfCoord x0 ++ bytesOfCoord y0 ++ bytesOfCoord r ++ [byteOfBit on])⟩
  | .drawBitmap x y w h bitmap on =>
    ⟨.operation,
      7 :: (bytesOfCoord x ++ bytesOfCoord y ++ bytesOfCoord w ++ bytesOfCoord h ++ byteOfBit on :: bitmap)⟩
  | .drawChar x y c => ⟨.operation, 8 :: (bytesOfCoord x ++ bytesOfCoord y ++ [c])⟩
  | .drawString x y n codes =>
    ⟨.operation, 9 :: (bytesOfCoord x ++ bytesOfCoord y ++ bytesOfLength n ++ codes)⟩
  | .sendCommand cmd => ⟨.operation, 10 :: encodeCommand cmd⟩

/-! ### The words of opcode_table.json -/

/-- How many operand bytes an operation has when every one of them is zero (log 5). -/
def zeroOperands (opsel : Nat) : List Byte :=
  match opsel with
  | 4 => List.replicate 5 0
  | 5 => List.replicate 9 0
  | 6 => List.replicate 7 0
  | 7 => List.replicate 9 0
  | 8 => List.replicate 5 0
  | 9 => List.replicate 8 0
  | 10 => [0]
  | _ => []

/-- The request for a word as opcode_table.json numbers it, every bit above `nbits` zero (log 5). The table gives
byte 0 of a two-byte command the high-order bits; an operation's four `OPSEL` bits and a one-byte command share the
eight-bit words 0 to 10, which are read as `OPSEL`. -/
def tableRequest (nbits w : Nat) : Request :=
  if nbits = 0 then ⟨.command, []⟩
  else if nbits < 8 ∨ (nbits = 8 ∧ w ≤ 10) then ⟨.operation, BitVec.ofNat 8 w :: zeroOperands w⟩
  else if nbits = 8 then
    ⟨.command, if isTwoByteOpcode (BitVec.ofNat 8 w) then [BitVec.ofNat 8 w, 0] else [BitVec.ofNat 8 w]⟩
  else ⟨.command, [BitVec.ofNat 8 (w / 256), BitVec.ofNat 8 w]⟩

/-- The instruction this decoder reads from a word as opcode_table.json numbers it. -/
def decodeTableWord (nbits w : Nat) : Option Instr :=
  match decode (tableRequest nbits w) with
  | .ok i => some i
  | .error _ => none

end Sys2Proof
end

