-- ==== Sys2Proof/Config.lean ====
section
/-! DEFINITION. What is fixed for one core: the geometry the source states (R9), the types of the values the
constructor is given, and the values the spec leaves OPEN or unspecified, each an opaque constant with no body. -/

namespace Sys2Proof

/-- `WIDTH`, in pixels (R9, R10). -/
def Config.width : Nat := 128

/-- `HEIGHT`, in pixels (R9, R10). -/
def Config.height : Nat := 128

/-- `FB_SIZE = WIDTH*HEIGHT/8` bytes (R9, R24). -/
def Config.fbSize : Nat := 2048

/-- `PAGES = HEIGHT/8` (R9, R10). -/
def Config.pages : Nat := 16

/-- The number of bytes of `FONT`: 96 glyphs of `GLYPH_W = 5` bytes (R28, D22). -/
def Config.fontSize : Nat := 480

/-- The construction-time check of a geometry (R9, R58, R206 (1)): both sides positive multiples of 8, and no larger
than the 7-bit column and 4-bit page fields can address. -/
def Config.geometryOk (width height : Nat) : Bool :=
  width % 8 == 0 && height % 8 == 0 && 0 < width && 0 < height && width ≤ 128 && height ≤ 128

/-- `CFG`, the eleven fields of the DisplayConfig in the order of R22, each at the width R22 gives. -/
structure DisplayConfig where
  column : BitVec 7
  page : BitVec 4
  startLine : BitVec 7
  contrast : BitVec 8
  muxRatio : BitVec 7
  offset : BitVec 7
  clockDivide : BitVec 8
  chargePeriod : BitVec 8
  vcomLevel : BitVec 8
  remap : BitVec 1
  scanDirection : BitVec 1
deriving DecidableEq, Repr, Inhabited

/-- The transport's `MODE` (R30 (a)). -/
inductive TransportMode where
  | command
  | data
deriving DecidableEq, Repr, Inhabited

/-- The level of the reset line (R30 (b)); which physical level is the active one is not in the spec (D33). -/
inductive LineLevel where
  | asserted
  | released
deriving DecidableEq, Repr, Inhabited

/-- `CFG_INIT`: the `config` operand of `new` (R10, R22, R232: no power-on value may be assumed). Log 8. -/
opaque Config.cfgInit : DisplayConfig

/-- `FB_INIT`: byte `a` of the framebuffer after construction, any value (R24, D18, U2). Log 7. -/
opaque Config.fbInit : Nat → Byte

/-- `FONT`: byte `k` of the glyph table, an OPEN parameter (R10, R28, U13). Log 9. -/
opaque Config.fontInit : Nat → Byte

/-- The transport's mode after construction, any value (R30, R33, U9). Log 11. -/
opaque Config.modeInit : TransportMode

/-- The level of the reset line after construction, any value (R30, R33, U9). Log 11. -/
opaque Config.resetLineInit : LineLevel

/-- What working register number `r` holds while no operation of its engine runs, any value (R25 to R27, U3).
The first argument is the draw: each time a register becomes unspecified a new draw is taken. Log 10. -/
opaque Config.freeRegister : Nat → Nat → Int

/-- What the `k`-th read of an operation gives where the host's operand memory holds no byte, any value (R52, U6).
The first argument is the draw of the operation. Log 18. -/
opaque Config.freeOperandByte : Nat → Nat → Byte

end Sys2Proof
end

