-- ==== Sys2Proof/Machine/Memory.lean ====
section
/-! DEFINITION. A byte memory as a list of (address, byte) pairs in one canonical form: addresses strictly rising, and
no entry equal to what an unlisted address reads as (R24, R50, R56: every access is one byte). -/

namespace Sys2Proof.Machine

open Host (Cell)

/-- What an address that is not listed holds. Which bytes a memory holds at reset is State.reset's business: this is
only how a zero byte is written down (log 7). -/
def Memory.unlisted : Byte := 0

/-- `MemRead(addr, 1)` (R13, R56). -/
def Memory.read : List Cell → Nat → Byte
  | [], _ => Memory.unlisted
  | (k, v) :: m, a => if k = a then v else Memory.read m a

/-- `MemWrite(addr, 1, v)` (R13, R56). -/
def Memory.write : List Cell → Nat → Byte → List Cell
  | [], a, v => if v = Memory.unlisted then [] else [(a, v)]
  | (k, w) :: m, a, v =>
    if a < k then (if v = Memory.unlisted then (k, w) :: m else (a, v) :: (k, w) :: m)
    else if a = k then (if v = Memory.unlisted then m else (a, v) :: m)
    else (k, w) :: Memory.write m a v

/-- The canonical form of a memory of `size` bytes. -/
abbrev Memory.wf (size : Nat) (m : List Cell) : Prop :=
  m.Pairwise (fun p q => p.1 < q.1) ∧ ∀ c ∈ m, c.1 < size ∧ c.2 ≠ Memory.unlisted

/-- The memory whose byte `a`, for `a < size`, is `f a`. -/
@[irreducible] def Memory.ofFn (size : Nat) (f : Nat → Byte) : List Cell :=
  (List.range size).filterMap fun a => if f a = Memory.unlisted then none else some (a, f a)

/-- The `n` bytes from address `a` up, in ascending address order. -/
def Memory.readBytes (m : List Cell) (a n : Nat) : List Byte :=
  (List.range n).map fun i => Memory.read m (a + i)

end Sys2Proof.Machine
end

