-- ==== Sys2Proof/Machine/State.lean ====
section
/-! DEFINITION. The state of the core (10_state.md), the reasons a step can stop, and the state after construction
(R33, R230). -/

namespace Sys2Proof.Machine

open Host (Cell)

/-- `DS`, the device state (R20). -/
inductive DeviceState where
  | uninitialized
  | resetting
  | configuring
  | ready
  | displaying
  | blanked
  | deinitialized
deriving DecidableEq, Repr

/-- The events of the trace (R31). -/
inductive Event where
  | rstAssert
  | rstRelease
  | delay (ms : Nat)
  | selCmd
  | selData
  | write (bytes : List Byte)
deriving DecidableEq, Repr

/-- The working registers of the line rasterizer (R25). -/
structure LineRegs where
  lx : Int
  ly : Int
  lx1 : Int
  ly1 : Int
  ldx : Int
  ldy : Int
  lsx : Int
  lsy : Int
  lerr : Int
  le2 : Int
deriving DecidableEq, Repr

/-- The working registers and latched operands of the circle rasterizer (R26). -/
structure CircleRegs where
  cx : Int
  cy : Int
  cerr : Int
  cx0 : Int
  cy0 : Int
  con : Bool
deriving DecidableEq, Repr

/-- The working registers of the blitter (R27). -/
structure BlitRegs where
  bi : Nat
  bj : Nat
  bstride : Nat
deriving DecidableEq, Repr

/-- The working registers of the glyph engine (R27). -/
structure GlyphRegs where
  gcol : Nat
  grow : Nat
  gbyte : Byte
deriving DecidableEq, Repr

/-- The working registers of the string engine (R27). -/
structure TextRegs where
  cur : Int
  sk : Nat
deriving DecidableEq, Repr

/-- All working registers (R25 to R27). -/
structure WorkRegs where
  line : LineRegs
  circle : CircleRegs
  blit : BlitRegs
  glyph : GlyphRegs
  text : TextRegs
  pg : Nat
deriving DecidableEq, Repr

/-- The transport's mode and the reset line, which the core's events drive and the core never reads (R30, R214). -/
structure Pins where
  mode : TransportMode
  resetLine : LineLevel
deriving DecidableEq, Repr

/-- The state of the core. `port` and `draws` are this model's own (log 2, log 19). -/
structure State where
  /-- `DS` (R20). -/
  ds : DeviceState
  /-- `CFG` (R22). -/
  cfg : DisplayConfig
  /-- `INIT_DCDC`, fixed for the life of the core (R10, R144; log 13). -/
  initDcdc : BitVec 4
  /-- `FB` (R24). -/
  fb : List Cell
  /-- `FONT`, read only (R28). -/
  font : List Cell
  /-- The working registers (R25 to R27). -/
  work : WorkRegs
  /-- `TR`, oldest event first (R31). -/
  trace : List Event
  /-- The mode and the reset line (R30). -/
  pins : Pins
  /-- Requests the host has issued and the core has not run yet, oldest first. -/
  port : List Request
  /-- How many draws of free values have been taken. -/
  draws : Nat
deriving DecidableEq, Repr

/-- Why a step faults: never. The core raises nothing, traps nothing and never stops (R200, R209), so there is no
constructor. Log 23. -/
inductive Fault where
deriving DecidableEq, Repr

/-- Why a step is refused. -/
inductive Refusal where
  /-- Raised by `exec` for an instruction that has no meaning yet. Safe: nothing is claimed of it. -/
  | notModelled (mnemonic : String)
  /-- Raised by `step` when the oldest request's bytes are no instruction: refused at the boundary, before the core
  runs (R206, R91, R87, U4, U5). Safe: the spec gives such a request no behaviour. Log 21. -/
  | noInstruction (why : DecodeError)
deriving DecidableEq, Repr

/-! ### Free values of the working registers (U3; log 10) -/

def LineRegs.free (n : Nat) : LineRegs where
  lx := Config.freeRegister n 0
  ly := Config.freeRegister n 1
  lx1 := Config.freeRegister n 2
  ly1 := Config.freeRegister n 3
  ldx := Config.freeRegister n 4
  ldy := Config.freeRegister n 5
  lsx := Config.freeRegister n 6
  lsy := Config.freeRegister n 7
  lerr := Config.freeRegister n 8
  le2 := Config.freeRegister n 9

def CircleRegs.free (n : Nat) : CircleRegs where
  cx := Config.freeRegister n 10
  cy := Config.freeRegister n 11
  cerr := Config.freeRegister n 12
  cx0 := Config.freeRegister n 13
  cy0 := Config.freeRegister n 14
  con := decide (Config.freeRegister n 15 = 0)

def BlitRegs.free (n : Nat) : BlitRegs where
  bi := (Config.freeRegister n 16).toNat
  bj := (Config.freeRegister n 17).toNat
  bstride := (Config.freeRegister n 18).toNat

def GlyphRegs.free (n : Nat) : GlyphRegs where
  gcol := (Config.freeRegister n 19).toNat
  grow := (Config.freeRegister n 20).toNat
  gbyte := BitVec.ofInt 8 (Config.freeRegister n 21)

def TextRegs.free (n : Nat) : TextRegs where
  cur := Config.freeRegister n 22
  sk := (Config.freeRegister n 23).toNat

/-- The page counter's free value. -/
def freePg (n : Nat) : Nat := (Config.freeRegister n 24).toNat

def WorkRegs.free (n : Nat) : WorkRegs where
  line := LineRegs.free n
  circle := CircleRegs.free n
  blit := BlitRegs.free n
  glyph := GlyphRegs.free n
  text := TextRegs.free n
  pg := freePg n

/-! ### Construction -/

/-- `new(transport, config, control_line, reset_line)`: latches the configuration and emits nothing (R230, R33). -/
def State.construct (config : DisplayConfig) : State where
  ds := .uninitialized
  cfg := config
  initDcdc := 1
  fb := Memory.ofFn Config.fbSize Config.fbInit
  font := Memory.ofFn Config.fontSize Config.fontInit
  work := WorkRegs.free 0
  trace := []
  pins := { mode := Config.modeInit, resetLine := Config.resetLineInit }
  port := []
  draws := 1

/-- The core right after construction with the configuration `CFG_INIT` (R33). -/
def State.reset : State := State.construct Config.cfgInit

end Sys2Proof.Machine
end

