-- ==== Sys2Proof/Machine/Flags.lean ====
section
/-! DEFINITION. The core has no condition codes; its only flag is the device state (R29). Here are its predicates and
how a command that is sent moves it (R20, R23, R148). -/

namespace Sys2Proof.Machine

/-- `operational(DS)` (R23). -/
def operational : DeviceState → Bool
  | .ready => true
  | .displaying => true
  | _ => false

/-- The states in which `send_command` sends (R148). -/
def acceptsCommands : DeviceState → Bool
  | .ready => true
  | .displaying => true
  | .blanked => true
  | _ => false

/-- The states the core can rest in between operations (R20). -/
def stable : DeviceState → Bool
  | .uninitialized => true
  | .displaying => true
  | .blanked => true
  | .deinitialized => true
  | _ => false

/-- `DS` after a command has been sent from state `ds` (R148). -/
def dsAfterCommand (c : Command) (ds : DeviceState) : DeviceState :=
  match c with
  | .displayOnOff o => if o = 1 then .displaying else .blanked
  | _ => ds

end Sys2Proof.Machine
end

