-- ==== Sys2Proof/Machine/Params.lean ====
section
/-! DEFINITION. The parameters of R10 that the source states or the spec decides, under their names there. -/

namespace Sys2Proof.Machine

/-- `RESET_DELAY_MS` (R10, R141; log 14). -/
def resetDelayMs : Nat := 100

/-- `INIT_REVERSE`, normal display (R10, D9; log 14). -/
def initReverse : BitVec 1 := 0

/-- `FIRST_CHAR` (R10, R183). -/
def firstChar : Nat := 32

/-- `LAST_CHAR` (R10, R183). -/
def lastChar : Nat := 127

/-- `GLYPH_W` (R10, D22; log 17). -/
def glyphWidth : Nat := 5

/-- `GLYPH_H` (R10, D22; log 17). -/
def glyphHeight : Nat := 8

/-- `GLYPH_SPACING` (R10). -/
def glyphSpacing : Nat := 1

/-- `GLYPH_OPAQUE` (R10, D22; log 17). -/
def glyphOpaque : Bool := true

end Sys2Proof.Machine
end

