-- ==== Sys2Proof/Machine/Operands.lean ====
section
/-! DEFINITION. How operands enter the pseudocode (R12, R85, R93), and the read-only accessors of operand memory,
the glyph table and the configuration (R13, R28, R52). -/

namespace Sys2Proof.Machine

open Host (Cell)

/-- `sext_16` (R12, R93): the signed integer a coordinate denotes. -/
def sext16 (v : Coord) : Int := v.toInt

/-- `zext_8` (R12, R93). -/
def zext8 (c : Byte) : Nat := c.toNat

/-- Bits 3:0 of a column address, for `SetColumnLow` (R85 (a)). -/
def columnLow (col : BitVec 7) : BitVec 4 := col.extractLsb' 0 4

/-- Bits 6:4 of a column address, for `SetColumnHigh` (R85 (a)). -/
def columnHigh (col : BitVec 7) : BitVec 3 := col.extractLsb' 4 3

/-- `CFG[i]`, field number `i` of R22. -/
def cfgRead (c : DisplayConfig) (i : Nat) : Option Nat :=
  [c.column.toNat, c.page.toNat, c.startLine.toNat, c.contrast.toNat, c.muxRatio.toNat, c.offset.toNat,
    c.clockDivide.toNat, c.chargePeriod.toNat, c.vcomLevel.toNat, c.remap.toNat, c.scanDirection.toNat][i]?

/-- Byte `k` of the memory the host handed over; where it holds none, any value (U6; log 18). `draw` numbers the
operation and `nth` the read within it. -/
def operandRead (bytes : List Byte) (draw nth k : Nat) : Byte :=
  match bytes[k]? with
  | some b => b
  | none => Config.freeOperandByte draw nth

/-- `BSTRIDE`, bytes per row of a bitmap `w` pixels wide (R27, R180). -/
def bmpStride (w : Nat) : Nat := (w + 7) / 8

/-- `BmpRead(k)` (R52), as the `nth` read of its operation. -/
def bmpRead (bitmap : List Byte) (draw nth k : Nat) : Byte := operandRead bitmap draw nth k

/-- The bit that `draw_bitmap` tests for column `i`, row `j` of a bitmap `w` wide: bit `7 - (i % 8)` of byte
`j * BSTRIDE + i / 8` (R55 (b), R180). -/
def bmpBit (bitmap : List Byte) (draw w i j : Nat) : Bool :=
  (bmpRead bitmap draw (j * w + i) (j * bmpStride w + i / 8)).getLsbD (7 - i % 8)

/-- `StrRead(k)` (R52). -/
def strRead (codes : List Byte) (draw k : Nat) : Byte := operandRead codes draw k k

/-- `FontRead(g, col)` (R28, R52). -/
def fontRead (font : List Cell) (g col : Nat) : Byte := Memory.read font (g * glyphWidth + col)

end Sys2Proof.Machine
end

