-- ==== Sys2Proof/Machine/Ops.lean ====
section
/-! DEFINITION. The operations every meaning is built from: emitting events (R31, R140, R141), sending a command
(R148), the guard (R164), the pixel primitive (R161), plotting, and what becomes of working registers (R25 to R27). The
core takes no exception and returns from none (R200, R209), so no such operation stands here. -/

namespace Sys2Proof.Machine

open Host (Cell)

/-- What the meaning of an instruction answers. -/
abbrev Result := Host.Outcome State Fault Refusal

/-! ### Events -/

/-- What an event does to the mode and the reset line (R30, R31). -/
def Pins.drive (p : Pins) : Event → Pins
  | .rstAssert => { p with resetLine := .asserted }
  | .rstRelease => { p with resetLine := .released }
  | .selCmd => { p with mode := .command }
  | .selData => { p with mode := .data }
  | .delay _ => p
  | .write _ => p

/-- `emit(e)` (R13, R31). -/
def State.emit (s : State) (e : Event) : State :=
  { s with trace := s.trace ++ [e], pins := s.pins.drive e }

/-- `DS <- d`. -/
def State.setDs (s : State) (d : DeviceState) : State := { s with ds := d }

/-- `EmitCommand(c)` (R140): nothing for a command that has no byte. -/
def State.emitCommand (s : State) (c : Command) : State :=
  match encodeCommand c with
  | [] => s
  | b :: bs => (s.emit .selCmd).emit (.write (b :: bs))

/-- `ResetSequence()` (R141; log 14). -/
def State.resetSequence (s : State) : State :=
  (((((s.emit .rstRelease).emit (.delay resetDelayMs)).emit .rstAssert).emit (.delay resetDelayMs)).emit
    .rstRelease).emit (.delay resetDelayMs)

/-- `send_command(cmd)` (R148): outside its states nothing; `ReadId` nothing (R129, log 15); otherwise the command is
emitted and `DisplayOnOff` moves `DS`. -/
def State.sendCommand (s : State) (c : Command) : State :=
  if acceptsCommands s.ds then
    match c with
    | .readId => s
    | c => (s.emitCommand c).setDs (dsAfterCommand c s.ds)
  else s

/-! ### The framebuffer -/

/-- The guard of every framebuffer operation (R164). -/
def State.whenOperational (s : State) (f : State → State) : State :=
  if operational s.ds then f s else s

/-- `addr(x, y) = (y / 8) * WIDTH + x` (R53). -/
def fbAddr (x y : Nat) : Nat := y / 8 * Config.width + x

/-- The mask of bit `y % 8` (R53, R161). -/
def pixelMask (y : Nat) : Byte := 1#8 <<< (y % 8)

/-- The pixel at column `x`, row `y` of a framebuffer (R24, R53). -/
def pixelAt (fb : List Cell) (x y : Nat) : Bool := (Memory.read fb (fbAddr x y)).getLsbD (y % 8)

/-- The test of `SetPixel` (R54, R161): a point outside is ignored. -/
def inBounds (x y : Int) : Bool :=
  decide (0 ≤ x) && decide (x < Config.width) && decide (0 ≤ y) && decide (y < Config.height)

/-- `SetPixel(x, y, on)` (R161). -/
def setPixel (fb : List Cell) (x y : Int) (on : Bool) : List Cell :=
  if inBounds x y then
    let a := fbAddr x.toNat y.toNat
    let m := pixelMask y.toNat
    let old := Memory.read fb a
    Memory.write fb a (if on then old ||| m else old &&& ~~~m)
  else fb

/-- One call of `SetPixel`. -/
structure Plot where
  x : Int
  y : Int
  on : Bool
deriving DecidableEq, Repr

/-- The calls of `SetPixel` an engine makes, in order. -/
def plotAll (fb : List Cell) (ps : List Plot) : List Cell :=
  ps.foldl (fun m p => setPixel m p.x p.y p.on) fb

def State.plot (s : State) (ps : List Plot) : State := { s with fb := plotAll s.fb ps }

/-- What the loop of `clear` leaves (R160): every byte 0x00, whatever stood there, so that nothing is listed.
`clearLoop_eq` in Laws/Ops.lean shows that R160's loop of writes gives just this. -/
def clearBytes : List Cell := []

/-! ### Working registers outside their operation

An operation writes each of its registers before it reads it and nothing else reads them (R25 to R27); once it has ended
their value is unspecified (U3), so a free value stands there, of the draw the operation took (log 10). -/

def State.leaveLine (s : State) : State :=
  { s with work := { s.work with line := LineRegs.free s.draws }, draws := s.draws + 1 }

def State.leaveCircle (s : State) : State :=
  { s with work := { s.work with circle := CircleRegs.free s.draws }, draws := s.draws + 1 }

def State.leaveBlit (s : State) : State :=
  { s with work := { s.work with blit := BlitRegs.free s.draws }, draws := s.draws + 1 }

def State.leaveGlyph (s : State) : State :=
  { s with work := { s.work with glyph := GlyphRegs.free s.draws }, draws := s.draws + 1 }

def State.leaveText (s : State) : State :=
  { s with work := { s.work with glyph := GlyphRegs.free s.draws, text := TextRegs.free s.draws },
           draws := s.draws + 1 }

def State.leaveFlush (s : State) : State :=
  { s with work := { s.work with pg := freePg s.draws }, draws := s.draws + 1 }

end Sys2Proof.Machine
end

