-- ==== Sys2Proof/Machine/Commands.lean ====
section
/-! DEFINITION. The meanings of the twenty command rows (R111 to R130): the host sends the command, which is
`send_command` (R148) with the bytes of the codec (log 4). -/

namespace Sys2Proof.Machine

/-- `SetColumnLow(a)` (R111). -/
def execSetColumnLow (a : BitVec 4) (s : State) : Result := .next (s.sendCommand (.setColumnLow a))

/-- `SetColumnHigh(a)` (R112). -/
def execSetColumnHigh (a : BitVec 3) (s : State) : Result := .next (s.sendCommand (.setColumnHigh a))

/-- `SetPageAddress(p)` (R113). -/
def execSetPageAddress (p : BitVec 4) (s : State) : Result := .next (s.sendCommand (.setPageAddress p))

/-- `SetContrast(v)` (R114). -/
def execSetContrast (v : BitVec 8) (s : State) : Result := .next (s.sendCommand (.setContrast v))

/-- `SetMultiplexRatio(m)` (R115). -/
def execSetMultiplexRatio (m : BitVec 7) (s : State) : Result := .next (s.sendCommand (.setMultiplexRatio m))

/-- `SetDisplayOffset(o)` (R116). -/
def execSetDisplayOffset (o : BitVec 7) (s : State) : Result := .next (s.sendCommand (.setDisplayOffset o))

/-- `SetClockDivide(d)` (R117). -/
def execSetClockDivide (d : BitVec 8) (s : State) : Result := .next (s.sendCommand (.setClockDivide d))

/-- `SetChargePeriod(c)` (R118). -/
def execSetChargePeriod (c : BitVec 8) (s : State) : Result := .next (s.sendCommand (.setChargePeriod c))

/-- `SetVcomLevel(v)` (R119). -/
def execSetVcomLevel (v : BitVec 8) (s : State) : Result := .next (s.sendCommand (.setVcomLevel v))

/-- `SetDisplayStartLine(l)` (R120). -/
def execSetDisplayStartLine (l : BitVec 7) (s : State) : Result := .next (s.sendCommand (.setDisplayStartLine l))

/-- `SetSegmentRemap(r)` (R121). -/
def execSetSegmentRemap (r : BitVec 1) (s : State) : Result := .next (s.sendCommand (.setSegmentRemap r))

/-- `SetScanDirection(d)` (R122). -/
def execSetScanDirection (d : BitVec 1) (s : State) : Result := .next (s.sendCommand (.setScanDirection d))

/-- `EntireDisplay(e)` (R123). -/
def execEntireDisplay (e : BitVec 1) (s : State) : Result := .next (s.sendCommand (.entireDisplay e))

/-- `NormalReverse(r)` (R124). -/
def execNormalReverse (r : BitVec 1) (s : State) : Result := .next (s.sendCommand (.normalReverse r))

/-- `DisplayOnOff(o)` (R125) and moves `DS` (R148). -/
def execDisplayOnOff (o : BitVec 1) (s : State) : Result := .next (s.sendCommand (.displayOnOff o))

/-- `ReadModifyWrite` (R126). -/
def execReadModifyWrite (s : State) : Result := .next (s.sendCommand .readModifyWrite)

/-- `End` (R127). -/
def execEndCmd (s : State) : Result := .next (s.sendCommand .endCmd)

/-- `Nop` (R128). -/
def execNop (s : State) : Result := .next (s.sendCommand .nop)

/-- `ReadId` (R129): no byte is sent, a silent no-op. -/
def execReadId (s : State) : Result := .next (s.sendCommand .readId)

/-- `SetDcDc(v)` (R130). -/
def execSetDcDc (v : BitVec 4) (s : State) : Result := .next (s.sendCommand (.setDcDc v))

end Sys2Proof.Machine
end

