-- ==== Sys2Proof/Machine/Blit.lean ====
section
/-! DEFINITION. Bitmaps, characters and strings (44_blit_glyph.md). -/

namespace Sys2Proof.Machine

open Host (Cell)

/-! ### Bitmap (R180) -/

/-- The calls of `SetPixel` for row `j` (R180). -/
def bitmapRow (bitmap : List Byte) (draw : Nat) (x y : Int) (w j : Nat) (on : Bool) : List Plot :=
  (List.range w).filterMap fun (i : Nat) =>
    if bmpBit bitmap draw w i j then some ⟨x + i, y + j, on⟩ else none

/-- The calls of `SetPixel` of a bitmap of `w` columns and `h` rows, rows outer, columns inner (R180). -/
def bitmapPlots (bitmap : List Byte) (draw : Nat) (x y : Int) (w h : Nat) (on : Bool) : List Plot :=
  (List.range h).flatMap fun (j : Nat) => bitmapRow bitmap draw x y w j on

/-- `draw_bitmap` past its guard (R180): nothing is drawn or read when a side is not positive. -/
def State.drawBitmap (s : State) (x y w h : Int) (bitmap : List Byte) (on : Bool) : State :=
  if w ≤ 0 ∨ h ≤ 0 then s
  else (s.plot (bitmapPlots bitmap s.draws x y w.toNat h.toNat on)).leaveBlit

/-- `draw_bitmap(x, y, w, h, bitmap, on)` (R180). -/
def execDrawBitmap (x y w h : Coord) (bitmap : List Byte) (on : Bool) (s : State) : Result :=
  .next (s.whenOperational fun s => s.drawBitmap (sext16 x) (sext16 y) (sext16 w) (sext16 h) bitmap on)

/-! ### Glyphs (R184; log 17) -/

/-- The range test of `DrawGlyph` (R183, R184). -/
def validChar (c : Byte) : Bool := decide (firstChar ≤ zext8 c) && decide (zext8 c ≤ lastChar)

/-- The calls of `SetPixel` for one column of a glyph, top row first: every cell when glyphs are opaque, the set bits
only when they are not (R184). -/
def glyphColumn (gbyte : Byte) (x y : Int) : List Plot :=
  (List.range glyphHeight).filterMap fun (row : Nat) =>
    if glyphOpaque then some ⟨x, y + row, gbyte.getLsbD row⟩
    else if gbyte.getLsbD row then some ⟨x, y + row, true⟩ else none

/-- The calls of `SetPixel` of `DrawGlyph(x, y, c)`, column by column (R184). -/
def glyphPlots (font : List Cell) (x y : Int) (c : Byte) : List Plot :=
  if validChar c then
    (List.range glyphWidth).flatMap fun (col : Nat) => glyphColumn (fontRead font (zext8 c - firstChar) col) (x + col) y
  else []

/-- `draw_char(x, y, c)` (R183). -/
def execDrawChar (x y : Coord) (c : Byte) (s : State) : Result :=
  .next (s.whenOperational fun s =>
    if validChar c then (s.plot (glyphPlots s.font (sext16 x) (sext16 y) c)).leaveGlyph else s)

/-! ### Strings (R186) -/

/-- How far the cursor moves after each character, drawn or not (R186). -/
def cursorStep : Nat := glyphWidth + glyphSpacing

/-- The loop of `draw_string` (R186): `left` characters are still to come, the next one is number `sk`, the cursor is
at `cur`; the rest is dropped once the cursor has reached the framebuffer's width. -/
def stringWalk (font : List Cell) (codes : List Byte) (draw : Nat) (y : Int) : Nat → Nat → Int → List Plot
  | 0, _, _ => []
  | left + 1, sk, cur =>
    if cur ≥ Config.width then []
    else glyphPlots font cur y (strRead codes draw sk) ++
      stringWalk font codes draw y left (sk + 1) (cur + cursorStep)

/-- `draw_string(x, y, s)`, `s` a sequence of `n` codes (R186). -/
def execDrawString (x y : Coord) (n : Nat) (codes : List Byte) (s : State) : Result :=
  .next (s.whenOperational fun s =>
    (s.plot (stringWalk s.font codes s.draws (sext16 y) n 0 (sext16 x))).leaveText)

end Sys2Proof.Machine
end

