-- ==== Sys2Proof/Machine/Device.lean ====
section
/-! DEFINITION. The operations of the device state machine: initialize, deinitialize, send_command
(41_device_control.md). -/

namespace Sys2Proof.Machine

/-- The twelve commands of the configuration sequence, in the fixed order of R143; `CFG.remap` and
`CFG.scan_direction` are not among them (R144). -/
def configureCommands (s : State) : List Command :=
  [.setColumnLow (columnLow s.cfg.column),
    .setColumnHigh (columnHigh s.cfg.column),
    .setPageAddress s.cfg.page,
    .setDisplayStartLine s.cfg.startLine,
    .setContrast s.cfg.contrast,
    .normalReverse initReverse,
    .setMultiplexRatio s.cfg.muxRatio,
    .setDisplayOffset s.cfg.offset,
    .setClockDivide s.cfg.clockDivide,
    .setChargePeriod s.cfg.chargePeriod,
    .setVcomLevel s.cfg.vcomLevel,
    .setDcDc s.initDcdc]

/-- The commands emitted one after the other. -/
def State.emitCommands (s : State) (cs : List Command) : State := cs.foldl State.emitCommand s

/-- `initialize()` past its guard (R143): Resetting, Configuring, Ready, Displaying. -/
def State.runInitialize (s : State) : State :=
  let s := (s.setDs .resetting).resetSequence
  let s := (s.setDs .configuring).emitCommands (configureCommands s)
  ((s.setDs .ready).emitCommand (.displayOnOff 1)).setDs .displaying

/-- `initialize()` (R143). -/
def execInitialize (s : State) : Result :=
  .next (if s.ds = .deinitialized then s else s.runInitialize)

/-- `deinitialize()` (R146). -/
def execDeinitialize (s : State) : Result :=
  .next (if s.ds = .deinitialized then s
    else (s.resetSequence.emitCommand (.displayOnOff 0)).setDs .deinitialized)

/-- `send_command(cmd)` (R148). -/
def execSendCommand (cmd : Command) (s : State) : Result := .next (s.sendCommand cmd)

end Sys2Proof.Machine
end

