-- ==== Sys2Proof/Machine/Flush.lean ====
section
/-! DEFINITION. flush (45_flush.md). -/

namespace Sys2Proof.Machine

/-- The data of page `p`: `FB[p*WIDTH + 0]` to `FB[p*WIDTH + WIDTH-1]`, column 0 first (R195). -/
def pageBytes (s : State) (p : Nat) : List Byte := Memory.readBytes s.fb (p * Config.width) Config.width

/-- What `flush` emits for page `p` (R195): three addressing commands, then the page's data in one write. -/
def State.flushPage (s : State) (p : Nat) : State :=
  let t := ((s.emitCommand (.setPageAddress (BitVec.ofNat 4 p))).emitCommand (.setColumnLow 0)).emitCommand
    (.setColumnHigh 0)
  (t.emit .selData).emit (.write (pageBytes t p))

/-- `flush()` (R195): all pages, ascending. -/
def execFlush (s : State) : Result :=
  .next (s.whenOperational fun s => ((List.range Config.pages).foldl State.flushPage s).leaveFlush)

end Sys2Proof.Machine
end

