-- ==== Sys2Proof/Machine/Framebuffer.lean ====
section
/-! DEFINITION. clear and set_pixel (42_framebuffer_ops.md). -/

namespace Sys2Proof.Machine

/-- `clear()` (R160). -/
def execClear (s : State) : Result :=
  .next (s.whenOperational fun s => { s with fb := clearBytes })

/-- `set_pixel(x, y, on)` (R162). -/
def execSetPixel (x y : Coord) (on : Bool) (s : State) : Result :=
  .next (s.whenOperational fun s => { s with fb := setPixel s.fb (sext16 x) (sext16 y) on })

end Sys2Proof.Machine
end

