-- ==== Sys2Proof/Machine/Raster.lean ====
section
/-! DEFINITION. The line and circle rasterizer (43_raster_line_circle.md). A walk yields the points it plots, in the
order of the pseudocode; plotting changes no register a walk reads. -/

namespace Sys2Proof.Machine

/-! ### Line (R170; log 16) -/

/-- The registers before the first plot. `LE2` is sampled before it is read. -/
def lineStart (x0 y0 x1 y1 : Int) : LineRegs :=
  let dx : Int := (x1 - x0).natAbs
  let dy : Int := -((y1 - y0).natAbs : Int)
  { lx := x0, ly := y0, lx1 := x1, ly1 := y1, ldx := dx, ldy := dy,
    lsx := if x0 < x1 then 1 else -1, lsy := if y0 < y1 then 1 else -1,
    lerr := dx + dy, le2 := 2 * (dx + dy) }

/-- `if LE2 >= LDY: LERR <- LERR + LDY; LX <- LX + LSX`. -/
def lineStepX (r : LineRegs) : LineRegs :=
  if r.le2 ≥ r.ldy then { r with lerr := r.lerr + r.ldy, lx := r.lx + r.lsx } else r

/-- `if LE2 <= LDX: LERR <- LERR + LDX; LY <- LY + LSY`. -/
def lineStepY (r : LineRegs) : LineRegs :=
  if r.le2 ≤ r.ldx then { r with lerr := r.lerr + r.ldx, ly := r.ly + r.lsy } else r

/-- One step past the end test: both tests use the one sample of `2 * LERR`. -/
def lineStep (r : LineRegs) : LineRegs := lineStepY (lineStepX { r with le2 := 2 * r.lerr })

/-- The end test. -/
def lineDone (r : LineRegs) : Bool := decide (r.lx = r.lx1) && decide (r.ly = r.ly1)

/-- The loop: plot, test the end, step; at most `fuel` plots. -/
def lineWalk : Nat → LineRegs → List (Int × Int)
  | 0, _ => []
  | fuel + 1, r => (r.lx, r.ly) :: if lineDone r then [] else lineWalk fuel (lineStep r)

/-- `max(LDX, -LDY) + 1`, the number of plots of a line (R171 (a)). -/
def linePlotCount (x0 y0 x1 y1 : Int) : Nat := max (x1 - x0).natAbs (y1 - y0).natAbs + 1

/-- The points a line plots, in order (R170). -/
def linePoints (x0 y0 x1 y1 : Int) : List (Int × Int) :=
  lineWalk (linePlotCount x0 y0 x1 y1) (lineStart x0 y0 x1 y1)

/-! ### Circle (R173; log 16) -/

/-- The registers before the first pass. -/
def circleStart (x0 y0 r : Int) (on : Bool) : CircleRegs :=
  { cx := r, cy := 0, cerr := 1 - r, cx0 := x0, cy0 := y0, con := on }

/-- The eight points of one pass, in the order of the pseudocode. -/
def circlePass (c : CircleRegs) : List (Int × Int) :=
  [(c.cx0 + c.cx, c.cy0 + c.cy), (c.cx0 + c.cy, c.cy0 + c.cx),
    (c.cx0 - c.cy, c.cy0 + c.cx), (c.cx0 - c.cx, c.cy0 + c.cy),
    (c.cx0 - c.cx, c.cy0 - c.cy), (c.cx0 - c.cy, c.cy0 - c.cx),
    (c.cx0 + c.cy, c.cy0 - c.cx), (c.cx0 + c.cx, c.cy0 - c.cy)]

/-- The updates that end a pass: `CY` grows first, and both formulas use the updated values. -/
def circleStep (c : CircleRegs) : CircleRegs :=
  let cy := c.cy + 1
  if c.cerr ≤ 0 then { c with cy := cy, cerr := c.cerr + 2 * cy + 1 }
  else { c with cy := cy, cx := c.cx - 1, cerr := c.cerr + 2 * (cy - (c.cx - 1)) + 1 }

/-- The loop `while CX >= CY`; at most `fuel` passes. -/
def circleWalk : Nat → CircleRegs → List (Int × Int)
  | 0, _ => []
  | fuel + 1, c => if c.cx ≥ c.cy then circlePass c ++ circleWalk fuel (circleStep c) else []

/-- The points a circle plots, in order; at most `r + 1` passes (R174 (h)). -/
def circlePoints (x0 y0 r : Int) (on : Bool) : List (Int × Int) :=
  circleWalk (r.toNat + 1) (circleStart x0 y0 r on)

/-! ### Meanings -/

/-- Points all plotted in one colour. -/
def colourPoints (ps : List (Int × Int)) (on : Bool) : List Plot := ps.map fun p => ⟨p.1, p.2, on⟩

/-- `draw_line(x0, y0, x1, y1, on)` (R170). -/
def execDrawLine (x0 y0 x1 y1 : Coord) (on : Bool) (s : State) : Result :=
  .next (s.whenOperational fun s =>
    (s.plot (colourPoints (linePoints (sext16 x0) (sext16 y0) (sext16 x1) (sext16 y1)) on)).leaveLine)

/-- `draw_circle(x0, y0, r, on)` (R173). -/
def execDrawCircle (x0 y0 r : Coord) (on : Bool) (s : State) : Result :=
  .next (s.whenOperational fun s =>
    (s.plot (colourPoints (circlePoints (sext16 x0) (sext16 y0) (sext16 r) on) on)).leaveCircle)

end Sys2Proof.Machine
end

