-- ==== Sys2Proof/Machine/Dispatch.lean ====
section
/-! DEFINITION. One arm for each instruction, each a direct call of its meaning. -/

namespace Sys2Proof.Machine

def exec (i : Instr) (s : State) : Host.Outcome State Fault Refusal :=
  match i with
  | .setColumnLow a => Sys2Proof.Machine.execSetColumnLow a s
  | .setColumnHigh a => Sys2Proof.Machine.execSetColumnHigh a s
  | .setPageAddress p => Sys2Proof.Machine.execSetPageAddress p s
  | .setContrast v => Sys2Proof.Machine.execSetContrast v s
  | .setMultiplexRatio m => Sys2Proof.Machine.execSetMultiplexRatio m s
  | .setDisplayOffset o => Sys2Proof.Machine.execSetDisplayOffset o s
  | .setClockDivide d => Sys2Proof.Machine.execSetClockDivide d s
  | .setChargePeriod c => Sys2Proof.Machine.execSetChargePeriod c s
  | .setVcomLevel v => Sys2Proof.Machine.execSetVcomLevel v s
  | .setDisplayStartLine l => Sys2Proof.Machine.execSetDisplayStartLine l s
  | .setSegmentRemap r => Sys2Proof.Machine.execSetSegmentRemap r s
  | .setScanDirection d => Sys2Proof.Machine.execSetScanDirection d s
  | .entireDisplay e => Sys2Proof.Machine.execEntireDisplay e s
  | .normalReverse r => Sys2Proof.Machine.execNormalReverse r s
  | .displayOnOff o => Sys2Proof.Machine.execDisplayOnOff o s
  | .readModifyWrite => Sys2Proof.Machine.execReadModifyWrite s
  | .endCmd => Sys2Proof.Machine.execEndCmd s
  | .nop => Sys2Proof.Machine.execNop s
  | .readId => Sys2Proof.Machine.execReadId s
  | .setDcDc v => Sys2Proof.Machine.execSetDcDc v s
  | .opInitialize => Sys2Proof.Machine.execInitialize s
  | .deinitialize => Sys2Proof.Machine.execDeinitialize s
  | .clear => Sys2Proof.Machine.execClear s
  | .flush => Sys2Proof.Machine.execFlush s
  | .setPixel x y on => Sys2Proof.Machine.execSetPixel x y on s
  | .drawLine x0 y0 x1 y1 on => Sys2Proof.Machine.execDrawLine x0 y0 x1 y1 on s
  | .drawCircle x0 y0 r on => Sys2Proof.Machine.execDrawCircle x0 y0 r on s
  | .drawBitmap x y w h bitmap on => Sys2Proof.Machine.execDrawBitmap x y w h bitmap on s
  | .drawChar x y c => Sys2Proof.Machine.execDrawChar x y c s
  | .drawString x y n codes => Sys2Proof.Machine.execDrawString x y n codes s
  | .sendCommand cmd => Sys2Proof.Machine.execSendCommand cmd s

end Sys2Proof.Machine
end

