-- ==== Sys2Proof/Machine/Fetch.lean ====
section
/-! DEFINITION. How the core takes its next operation: the oldest request on the port (log 2). -/

namespace Sys2Proof.Machine

/-- The oldest request, decoded, and the state with it taken off the port; none when the host has issued nothing. -/
def fetch (s : State) : Option (Decoded Instr × State) :=
  match s.port with
  | [] => none
  | r :: rest => some (decode r, { s with port := rest })

/-- A request laid where the next step takes it. -/
def State.place (s : State) (r : Request) : State := { s with port := r :: s.port }

end Sys2Proof.Machine
end

