-- ==== Sys2Proof/Machine/Step.lean ====
section
/-! DEFINITION. One step: the oldest request on the port runs to completion (R14). -/

namespace Sys2Proof.Machine

/-- One step. With no request the core waits (R230, R217); a request that is no instruction is refused before the
core runs (R206); an instruction runs as `exec` says. -/
def step (s : State) : Host.Outcome State Fault Refusal :=
  match fetch s with
  | none => .next s
  | some (.ok i, t) => exec i t
  | some (.error e, _) => .refused (.noInstruction e)

/-- The state with the instruction of a word of spec/opcode_table.json laid where the next step takes it (log 5). -/
def State.withFetchWord (s : State) (nbits w : Nat) : State := s.place (tableRequest nbits w)

end Sys2Proof.Machine
end

