-- ==== Sys2Proof/Machine/Construct.lean ====
section
/-! DEFINITION. The validated construction of a core (R206, R230): plain integers are checked before a core exists. -/

namespace Sys2Proof.Machine

/-- A `config` operand as plain integers, and the geometry it is meant for. -/
structure RawConfig where
  width : Nat
  height : Nat
  column : Nat
  page : Nat
  startLine : Nat
  contrast : Nat
  muxRatio : Nat
  offset : Nat
  clockDivide : Nat
  chargePeriod : Nat
  vcomLevel : Nat
  remap : Nat
  scanDirection : Nat
deriving DecidableEq, Repr

/-- Every field within its width (R22, R206 (2)), and the geometry this core is built for (R9, R206 (1)). -/
def RawConfig.valid (c : RawConfig) : Bool :=
  Config.geometryOk c.width c.height && c.width == Config.width && c.height == Config.height &&
    decide (c.column < 2 ^ 7) && decide (c.page < 2 ^ 4) && decide (c.startLine < 2 ^ 7) &&
    decide (c.contrast < 2 ^ 8) && decide (c.muxRatio < 2 ^ 7) && decide (c.offset < 2 ^ 7) &&
    decide (c.clockDivide < 2 ^ 8) && decide (c.chargePeriod < 2 ^ 8) && decide (c.vcomLevel < 2 ^ 8) &&
    decide (c.remap < 2 ^ 1) && decide (c.scanDirection < 2 ^ 1)

/-- `new`, on plain integers: no core is constructed from an ill-formed operand (R206, R230). -/
def State.new (c : RawConfig) : Option State :=
  if c.valid then
    some (State.construct
      { column := BitVec.ofNat 7 c.column, page := BitVec.ofNat 4 c.page, startLine := BitVec.ofNat 7 c.startLine,
        contrast := BitVec.ofNat 8 c.contrast, muxRatio := BitVec.ofNat 7 c.muxRatio,
        offset := BitVec.ofNat 7 c.offset, clockDivide := BitVec.ofNat 8 c.clockDivide,
        chargePeriod := BitVec.ofNat 8 c.chargePeriod, vcomLevel := BitVec.ofNat 8 c.vcomLevel,
        remap := BitVec.ofNat 1 c.remap, scanDirection := BitVec.ofNat 1 c.scanDirection })
  else none

end Sys2Proof.Machine
end

