-- ==== Sys2Proof/Machine/Trace.lean ====
section
/-! DEFINITION. The flattened stream of a trace (R32). -/

namespace Sys2Proof.Machine

/-- The items of a flattened stream (R32). -/
inductive StreamItem where
  | command (b : Byte)
  | data (b : Byte)
  | rstAssert
  | rstRelease
  | delay (ms : Nat)
deriving DecidableEq, Repr

/-- The items one write gives in a mode. -/
def writeItems (mode : TransportMode) (bytes : List Byte) : List StreamItem :=
  match mode with
  | .command => bytes.map .command
  | .data => bytes.map .data

/-- The flattened stream of a trace that starts in the given mode (R32). -/
def flatten (mode : TransportMode) : List Event → List StreamItem
  | [] => []
  | .rstAssert :: es => .rstAssert :: flatten mode es
  | .rstRelease :: es => .rstRelease :: flatten mode es
  | .delay ms :: es => .delay ms :: flatten mode es
  | .selCmd :: es => flatten .command es
  | .selData :: es => flatten .data es
  | .write bytes :: es => writeItems mode bytes ++ flatten mode es

/-- The data bytes of a flattened stream, in order. -/
def dataBytes : List StreamItem → List Byte
  | [] => []
  | .data b :: items => b :: dataBytes items
  | _ :: items => dataBytes items

/-- The command bytes of a flattened stream, in order. -/
def commandBytes : List StreamItem → List Byte
  | [] => []
  | .command b :: items => b :: commandBytes items
  | _ :: items => commandBytes items

end Sys2Proof.Machine
end

