-- ==== Sys2Proof/Safety.lean ====
section
/-! DEFINITION. The terms claims are made in: the invariant of the states the core rests in, what a run may do, and
classes of instructions. -/

namespace Sys2Proof

open Machine

/-- An outcome that leaves the machine running. The core has no other (R200, R242). -/
def Runs (o : Host.Outcome State Fault Refusal) : Prop := ∃ t, o = .next t

/-- Every write of a trace carries at least one byte and directly follows the selection of its mode ("selected before
every transmission", R30, R31, R140). `sel`: the event before was a selection. -/
def writesSelected : Bool → List Event → Bool
  | _, [] => true
  | _, .selCmd :: es => writesSelected true es
  | _, .selData :: es => writesSelected true es
  | sel, .write bytes :: es => sel && !bytes.isEmpty && writesSelected false es
  | _, .rstAssert :: es => writesSelected false es
  | _, .rstRelease :: es => writesSelected false es
  | _, .delay _ :: es => writesSelected false es

/-- The mode and the reset line after a trace, from their levels at construction (R30). -/
def pinsAfter (p : Pins) (es : List Event) : Pins := es.foldl Pins.drive p

/-- What holds of every state between operations: `FB` and `FONT` are memories of their sizes in canonical form
(R24, R28), `DS` is stable (R20), and the trace selects before it writes (R30). -/
structure Machine.State.Inv (s : State) : Prop where
  fb_wf : Memory.wf Config.fbSize s.fb
  font_wf : Memory.wf Config.fontSize s.font
  ds_stable : stable s.ds = true
  trace_selected : writesSelected false s.trace = true

/-- The twenty command rows. -/
def Instr.isCommandRow : Instr → Bool
  | .setColumnLow _ | .setColumnHigh _ | .setPageAddress _ | .setContrast _ | .setMultiplexRatio _
  | .setDisplayOffset _ | .setClockDivide _ | .setChargePeriod _ | .setVcomLevel _ | .setDisplayStartLine _
  | .setSegmentRemap _ | .setScanDirection _ | .entireDisplay _ | .normalReverse _ | .displayOnOff _
  | .readModifyWrite | .endCmd | .nop | .readId | .setDcDc _ => true
  | .opInitialize | .deinitialize | .clear | .flush | .setPixel .. | .drawLine .. | .drawCircle ..
  | .drawBitmap .. | .drawChar .. | .drawString .. | .sendCommand _ => false

/-- The eight operations that R164 guards. -/
def Instr.isFramebufferOp : Instr → Bool
  | .clear | .flush | .setPixel .. | .drawLine .. | .drawCircle .. | .drawBitmap .. | .drawChar .. | .drawString .. => true
  | .setColumnLow _ | .setColumnHigh _ | .setPageAddress _ | .setContrast _ | .setMultiplexRatio _
  | .setDisplayOffset _ | .setClockDivide _ | .setChargePeriod _ | .setVcomLevel _ | .setDisplayStartLine _
  | .setSegmentRemap _ | .setScanDirection _ | .entireDisplay _ | .normalReverse _ | .displayOnOff _
  | .readModifyWrite | .endCmd | .nop | .readId | .setDcDc _ | .opInitialize | .deinitialize | .sendCommand _ => false

/-- Issuing this instruction changes `DS` as R142's chart says: the state after it, from a stable state. -/
def chartNext (d : DeviceState) (i : Instr) : DeviceState :=
  match d, i with
  | .deinitialized, _ => .deinitialized
  | _, .opInitialize => .displaying
  | _, .deinitialize => .deinitialized
  | .displaying, .displayOnOff o => if o = 1 then .displaying else .blanked
  | .displaying, .sendCommand (.displayOnOff o) => if o = 1 then .displaying else .blanked
  | .blanked, .displayOnOff o => if o = 1 then .displaying else .blanked
  | .blanked, .sendCommand (.displayOnOff o) => if o = 1 then .displaying else .blanked
  | d, _ => d

/-- The cells of R142's chart that say "no-op". -/
def chartNoOp (d : DeviceState) (i : Instr) : Bool :=
  match d with
  | .deinitialized => true
  | .uninitialized => i != .opInitialize && i != .deinitialize
  | .blanked => i.isFramebufferOp
  | _ => false

/-- The instructions that draw: they write `FB` and emit nothing (R50, R63). -/
def Instr.draws (i : Instr) : Bool := i.isFramebufferOp && i != .flush

/-- The byte-0 values that no command has (the list of R86). -/
def neverEmitted (b : Nat) : Bool :=
  decide (0x18 ≤ b ∧ b ≤ 0x80) || decide (0x82 ≤ b ∧ b ≤ 0x9F) || decide (0xA2 ≤ b ∧ b ≤ 0xA3) ||
    decide (0xA9 ≤ b ∧ b ≤ 0xAC) || decide (0xC1 ≤ b ∧ b ≤ 0xC7) || decide (0xC9 ≤ b ∧ b ≤ 0xD2) || b == 0xD4 ||
    decide (0xD6 ≤ b ∧ b ≤ 0xD8) || b == 0xDA || decide (0xDD ≤ b ∧ b ≤ 0xDF) || decide (0xE1 ≤ b ∧ b ≤ 0xE2) ||
    decide (0xE4 ≤ b ∧ b ≤ 0xED) || decide (0xEF ≤ b ∧ b ≤ 0xFF)

/-- The state after the bytes of one command have been sent: two events, and the mode is `command` (R140). -/
def Machine.State.afterSending (s : State) (bytes : List Byte) : State :=
  { s with trace := s.trace ++ [.selCmd, .write bytes], pins := { s.pins with mode := .command } }

/-- The six events of the reset sequence, as R141 writes them. -/
def resetPulse : List Event := [.rstRelease, .delay 100, .rstAssert, .delay 100, .rstRelease, .delay 100]

/-- The eight events of page `p` of a flush of `fb`, as R195 writes them. -/
def pageEvents (fb : List Host.Cell) (p : Nat) : List Event :=
  [.selCmd, .write [0xB0#8 ||| BitVec.ofNat 8 p], .selCmd, .write [0x00], .selCmd, .write [0x10], .selData,
    .write ((List.range 128).map fun c => Memory.read fb (128 * p + c))]

/-- The eight symmetric points of a circle's pass at `c = (CX, CY)`, in the order of R173. -/
def eightPoints (x0 y0 : Int) (c : Int × Int) : List (Int × Int) :=
  [(x0 + c.1, y0 + c.2), (x0 + c.2, y0 + c.1), (x0 - c.2, y0 + c.1), (x0 - c.1, y0 + c.2),
    (x0 - c.1, y0 - c.2), (x0 - c.2, y0 - c.1), (x0 + c.2, y0 - c.1), (x0 + c.1, y0 - c.2)]

/-- `(CX, CY)` of the pass after `c` on the circle of radius `r`, by the closed form of R173's test `CERR <= 0`: there
`CERR = CY^2 + 2*CY + 1 + CX^2 - CX - r^2`. -/
def circleNextPass (r : Int) (c : Int × Int) : Int × Int :=
  if c.2 ^ 2 + 2 * c.2 + 1 + c.1 ^ 2 - c.1 ≤ r ^ 2 then (c.1, c.2 + 1) else (c.1 - 1, c.2 + 1)

end Sys2Proof
end

