-- ==== Sys2Proof/Certificates/Slice0/Obligations.lean ====
section
/-! DEFINITION. The statements for the provers, from the numbered rules of spec/. -/

open Sys2Proof Sys2Proof.Machine

/-! ### Encoding -/

/-- Decoding an encoded well-formed instruction gives it back: no operand bit is dropped (R83, R90, R93; the layout of
an operation's operands is the model's, log 3). -/
def Obligations.DecodeOfEncode : Prop :=
  ∀ i, WellFormed i = true → decode (encode i) = .ok i

/-- Only the encoding of an instruction decodes to it: reserved codes, out-of-range parameters and malformed operands
never fall through to a neighbour (R86, R87, R91, R206; layout log 3). -/
def Obligations.EncodeOfDecode : Prop :=
  ∀ r i, decode r = .ok i → encode i = r ∧ WellFormed i = true

/-- The codec is injective (R89, which the spec derives from R81, R83 and R84). -/
def Obligations.CommandEncodingInjective : Prop :=
  ∀ c d, c ≠ .readId → d ≠ .readId → encodeCommand c = encodeCommand d → c = d

/-- The length of a command's encoding by variant (R131, which the spec derives from R111 to R130). -/
def Obligations.CommandLengths : Prop :=
  (∀ a, (encodeCommand (.setColumnLow a)).length = 1) ∧ (∀ a, (encodeCommand (.setColumnHigh a)).length = 1) ∧
  (∀ p, (encodeCommand (.setPageAddress p)).length = 1) ∧ (∀ r, (encodeCommand (.setSegmentRemap r)).length = 1) ∧
  (∀ d, (encodeCommand (.setScanDirection d)).length = 1) ∧ (∀ e, (encodeCommand (.entireDisplay e)).length = 1) ∧
  (∀ r, (encodeCommand (.normalReverse r)).length = 1) ∧ (∀ o, (encodeCommand (.displayOnOff o)).length = 1) ∧
  (encodeCommand .readModifyWrite).length = 1 ∧ (encodeCommand .endCmd).length = 1 ∧
  (encodeCommand .nop).length = 1 ∧
  (∀ v, (encodeCommand (.setContrast v)).length = 2) ∧ (∀ m, (encodeCommand (.setMultiplexRatio m)).length = 2) ∧
  (∀ o, (encodeCommand (.setDisplayOffset o)).length = 2) ∧ (∀ d, (encodeCommand (.setClockDivide d)).length = 2) ∧
  (∀ c, (encodeCommand (.setChargePeriod c)).length = 2) ∧ (∀ v, (encodeCommand (.setVcomLevel v)).length = 2) ∧
  (∀ l, (encodeCommand (.setDisplayStartLine l)).length = 2) ∧ (∀ s, (encodeCommand (.setDcDc s)).length = 2) ∧
  (encodeCommand .readId).length = 0

/-- Byte 0 of a command: exactly the values outside R86's list occur, and that list has 195 members (R86, where the
spec derives the list from R83). -/
def Obligations.CommandFirstBytes : Prop :=
  (∀ b : Byte, (∃ c rest, encodeCommand c = b :: rest) ↔ neverEmitted b.toNat = false) ∧
  (List.range 256).countP neverEmitted = 195

/-- A stream of written commands reads back as those commands: the length of each is told by its byte 0 (R82, R88). -/
def Obligations.CommandStreamDecodes : Prop :=
  ∀ cs, Command.readId ∉ cs → decodeStream (cs.flatMap encodeCommand) = .ok cs

/-- Words written out from the patterns of R83 and the codes of R90 decode to the instructions they stand for. -/
def Obligations.KnownWordsDecode : Prop :=
  decode ⟨.command, [0b00000101]⟩ = .ok (.setColumnLow 5) ∧
  decode ⟨.command, [0b11001000]⟩ = .ok (.setScanDirection 1) ∧
  decode ⟨.command, [0b10000001, 0b10001001]⟩ = .ok (.setContrast 137) ∧
  decode ⟨.command, [0b10101101, 0b10000001]⟩ = .ok (.setDcDc 1) ∧
  decode ⟨.operation, [0b0010]⟩ = .ok .clear ∧
  decode ⟨.operation, [0b0100, 0xFF, 0xFF, 0x00, 0xC8, 1]⟩ = .ok (.setPixel (-1) 200 true) ∧
  decode ⟨.operation, [0b1000, 0x00, 0x78, 0x00, 0x00, 0x42]⟩ = .ok (.drawChar 120 0 66) ∧
  decode ⟨.operation, [0b1010, 0xAE]⟩ = .ok (.sendCommand (.displayOnOff 0))

/-- The one-byte encodings (R111 to R113, R121, R122, R124, R126, R127). -/
def Obligations.OneByteEncodings : Prop :=
  (∀ a, encodeCommand (.setColumnLow a) = [0x00#8 ||| BitVec.ofNat 8 a.toNat]) ∧
  (∀ a, encodeCommand (.setColumnHigh a) = [0x10#8 ||| BitVec.ofNat 8 a.toNat]) ∧
  (∀ p, encodeCommand (.setPageAddress p) = [0xB0#8 ||| BitVec.ofNat 8 p.toNat]) ∧
  (∀ r, encodeCommand (.setSegmentRemap r) = [0xA0#8 ||| BitVec.ofNat 8 r.toNat]) ∧
  (∀ d, encodeCommand (.setScanDirection d) = [0xC0#8 ||| BitVec.ofNat 8 (d.toNat * 8)]) ∧
  (∀ r, encodeCommand (.normalReverse r) = [0xA6#8 ||| BitVec.ofNat 8 r.toNat]) ∧
  encodeCommand .readModifyWrite = [0xE0] ∧ encodeCommand .endCmd = [0xEE]

/-- The two-byte encodings (R114 to R120, R130). -/
def Obligations.TwoByteEncodings : Prop :=
  (∀ v, encodeCommand (.setContrast v) = [0x81, v]) ∧
  (∀ m, encodeCommand (.setMultiplexRatio m) = [0xA8, BitVec.ofNat 8 m.toNat]) ∧
  (∀ o, encodeCommand (.setDisplayOffset o) = [0xD3, BitVec.ofNat 8 o.toNat]) ∧
  (∀ d, encodeCommand (.setClockDivide d) = [0xD5, d]) ∧
  (∀ c, encodeCommand (.setChargePeriod c) = [0xD9, c]) ∧
  (∀ v, encodeCommand (.setVcomLevel v) = [0xDB, v]) ∧
  (∀ l, encodeCommand (.setDisplayStartLine l) = [0xDC, BitVec.ofNat 8 l.toNat]) ∧
  (∀ s, encodeCommand (.setDcDc s) = [0xAD, 0x80#8 ||| BitVec.ofNat 8 s.toNat])

/-! ### The command rows: completion, result and frame in one equation (a row is the command being sent, log 4) -/

/-- `SetColumnLow`, `SetColumnHigh`, `SetPageAddress` sent: two events, nothing else (R111 to R113, R140, R148). -/
def Obligations.AddressCommandsSend : Prop :=
  ∀ s : State, acceptsCommands s.ds = true →
    (∀ a, exec (.setColumnLow a) s = .next (s.afterSending [0x00#8 ||| BitVec.ofNat 8 a.toNat])) ∧
    (∀ a, exec (.setColumnHigh a) s = .next (s.afterSending [0x10#8 ||| BitVec.ofNat 8 a.toNat])) ∧
    (∀ p, exec (.setPageAddress p) s = .next (s.afterSending [0xB0#8 ||| BitVec.ofNat 8 p.toNat]))

/-- The two-byte commands sent: one selection, both bytes in one write, nothing else (R114 to R120, R130, R140, R148).
-/
def Obligations.SettingCommandsSend : Prop :=
  ∀ s : State, acceptsCommands s.ds = true →
    (∀ v, exec (.setContrast v) s = .next (s.afterSending [0x81, v])) ∧
    (∀ m, exec (.setMultiplexRatio m) s = .next (s.afterSending [0xA8, BitVec.ofNat 8 m.toNat])) ∧
    (∀ o, exec (.setDisplayOffset o) s = .next (s.afterSending [0xD3, BitVec.ofNat 8 o.toNat])) ∧
    (∀ d, exec (.setClockDivide d) s = .next (s.afterSending [0xD5, d])) ∧
    (∀ c, exec (.setChargePeriod c) s = .next (s.afterSending [0xD9, c])) ∧
    (∀ v, exec (.setVcomLevel v) s = .next (s.afterSending [0xDB, v])) ∧
    (∀ l, exec (.setDisplayStartLine l) s = .next (s.afterSending [0xDC, BitVec.ofNat 8 l.toNat])) ∧
    (∀ v, exec (.setDcDc v) s = .next (s.afterSending [0xAD, 0x80#8 ||| BitVec.ofNat 8 v.toNat]))

/-- The remaining one-byte commands but `DisplayOnOff` sent: two events, nothing else (R121 to R124, R126 to R128,
R140, R148). -/
def Obligations.SwitchCommandsSend : Prop :=
  ∀ s : State, acceptsCommands s.ds = true →
    (∀ r, exec (.setSegmentRemap r) s = .next (s.afterSending [0xA0#8 ||| BitVec.ofNat 8 r.toNat])) ∧
    (∀ d, exec (.setScanDirection d) s = .next (s.afterSending [0xC0#8 ||| BitVec.ofNat 8 (d.toNat * 8)])) ∧
    (∀ e, exec (.entireDisplay e) s = .next (s.afterSending [0xA4#8 ||| BitVec.ofNat 8 e.toNat])) ∧
    (∀ r, exec (.normalReverse r) s = .next (s.afterSending [0xA6#8 ||| BitVec.ofNat 8 r.toNat])) ∧
    exec .readModifyWrite s = .next (s.afterSending [0xE0]) ∧
    exec .endCmd s = .next (s.afterSending [0xEE]) ∧
    exec .nop s = .next (s.afterSending [0xE3])

/-- `DisplayOnOff` sent: two events, and `DS` becomes `Displaying` for 1, `Blanked` for 0 (R125, R148). -/
def Obligations.DisplayOnOffMovesDs : Prop :=
  ∀ s : State, acceptsCommands s.ds = true →
    exec (.displayOnOff 1) s = .next { s.afterSending [0xAF] with ds := .displaying } ∧
    exec (.displayOnOff 0) s = .next { s.afterSending [0xAE] with ds := .blanked }

/-- `ReadId` is a silent no-op in every state, as a row and as the operand of `send_command` (R129, R148; the row: log
4). -/
def Obligations.ReadIdSilent : Prop :=
  encodeCommand .readId = [] ∧
  ∀ s : State, exec .readId s = .next s ∧ exec (.sendCommand .readId) s = .next s

/-- `send_command` as R148's pseudocode has it, in every state and for every command. -/
def Obligations.SendCommandRuns : Prop :=
  ∀ (c : Command) (s : State),
    exec (.sendCommand c) s = .next
      (if ¬(s.ds = .ready ∨ s.ds = .displaying ∨ s.ds = .blanked) then s
       else if c = .readId then s
       else { s.afterSending (encodeCommand c) with
              ds := if c = .displayOnOff 1 then .displaying else if c = .displayOnOff 0 then .blanked else s.ds })

/-- A command row runs as `send_command` of that command (the model's choice, log 4). -/
def Obligations.CommandRowIsSendCommand : Prop :=
  ∀ (c : Command) (s : State), exec (Instr.ofCommand c) s = exec (.sendCommand c) s

/-! ### Device control -/

/-- `initialize` (R143, R141): from every state but `Deinitialized` the reset pulse, the thirteen commands of the
canonical order with the latched configuration, and `Displaying`; in `Deinitialized` nothing. -/
def Obligations.InitializeRuns : Prop :=
  ∀ s : State,
    (s.ds ≠ .deinitialized →
      exec .opInitialize s = .next
        { s with
          ds := .displaying
          pins := { mode := .command, resetLine := .released }
          trace := s.trace ++ resetPulse ++
            [.selCmd, .write [BitVec.ofNat 8 (s.cfg.column.toNat % 16)],
              .selCmd, .write [0x10#8 ||| BitVec.ofNat 8 (s.cfg.column.toNat / 16)],
              .selCmd, .write [0xB0#8 ||| BitVec.ofNat 8 s.cfg.page.toNat],
              .selCmd, .write [0xDC, BitVec.ofNat 8 s.cfg.startLine.toNat],
              .selCmd, .write [0x81, s.cfg.contrast],
              .selCmd, .write [0xA6],
              .selCmd, .write [0xA8, BitVec.ofNat 8 s.cfg.muxRatio.toNat],
              .selCmd, .write [0xD3, BitVec.ofNat 8 s.cfg.offset.toNat],
              .selCmd, .write [0xD5, s.cfg.clockDivide],
              .selCmd, .write [0xD9, s.cfg.chargePeriod],
              .selCmd, .write [0xDB, s.cfg.vcomLevel],
              .selCmd, .write [0xAD, 0x80#8 ||| BitVec.ofNat 8 s.initDcdc.toNat],
              .selCmd, .write [0xAF]] }) ∧
    (s.ds = .deinitialized → exec .opInitialize s = .next s)

/-- `deinitialize` (R146): from every state but `Deinitialized` the reset pulse, then display-off, then
`Deinitialized`; in `Deinitialized` nothing. -/
def Obligations.DeinitializeRuns : Prop :=
  ∀ s : State,
    (s.ds ≠ .deinitialized →
      exec .deinitialize s = .next
        { s with
          ds := .deinitialized
          pins := { mode := .command, resetLine := .released }
          trace := s.trace ++ [.rstRelease, .delay 100, .rstAssert, .delay 100, .rstRelease, .delay 100,
            .selCmd, .write [0xAE]] }) ∧
    (s.ds = .deinitialized → exec .deinitialize s = .next s)

/-- Nothing leaves `Deinitialized` and nothing is emitted or drawn there (R142, R146, R231; command rows: log 4). -/
def Obligations.DeinitializedIsFinal : Prop :=
  ∀ (i : Instr) (s : State), s.ds = .deinitialized → exec i s = .next s

/-- The state chart of R142: for every instruction and stable state, the state after it, and silence in the cells that
say "no-op" (command rows stand in the `send_command` columns, log 4). -/
def Obligations.StateChart : Prop :=
  ∀ (i : Instr) (s : State), stable s.ds = true →
    ∃ t, exec i s = .next t ∧ t.ds = chartNext s.ds i ∧ (chartNoOp s.ds i = true → t = s)

/-! ### Framebuffer -/

/-- Outside `Ready` and `Displaying` every framebuffer operation is a silent no-op (R164, R23). -/
def Obligations.GuardSilent : Prop :=
  ∀ (i : Instr) (s : State), i.isFramebufferOp = true → s.ds ≠ .ready → s.ds ≠ .displaying → exec i s = .next s

/-- `set_pixel` writes one bit of one byte, or nothing out of range, and nothing else changes (R161, R53). -/
def Obligations.SetPixelWrites : Prop :=
  ∀ (x y : Coord) (on : Bool) (s : State), operational s.ds = true → Memory.wf Config.fbSize s.fb →
    ∃ t, exec (.setPixel x y on) s = .next t ∧ t = { s with fb := t.fb } ∧
      ∀ a, Memory.read t.fb a =
        if 0 ≤ x.toInt ∧ x.toInt < 128 ∧ 0 ≤ y.toInt ∧ y.toInt < 128 ∧
            (a : Int) = y.toInt / 8 * 128 + x.toInt then
          (if on then Memory.read s.fb a ||| 1#8 <<< (y.toInt.toNat % 8)
           else Memory.read s.fb a &&& ~~~(1#8 <<< (y.toInt.toNat % 8)))
        else Memory.read s.fb a

/-- The three properties of R163, the second and third of which the spec derives: out of range nothing changes; set
then clear leaves the byte with that bit clear, and restores it when the bit was clear; twice is once. -/
def Obligations.SetPixelProperties : Prop :=
  ∀ (x y : Coord) (s : State),
    (∀ on, ¬(0 ≤ x.toInt ∧ x.toInt < 128 ∧ 0 ≤ y.toInt ∧ y.toInt < 128) → exec (.setPixel x y on) s = .next s) ∧
    (0 ≤ x.toInt → x.toInt < 128 → 0 ≤ y.toInt → y.toInt < 128 → operational s.ds = true →
      Memory.wf Config.fbSize s.fb →
      ∃ t u, exec (.setPixel x y true) s = .next t ∧ exec (.setPixel x y false) t = .next u ∧
        Memory.read u.fb (y.toNat / 8 * 128 + x.toNat) =
          Memory.read s.fb (y.toNat / 8 * 128 + x.toNat) &&& ~~~(1#8 <<< (y.toNat % 8)) ∧
        (pixelAt s.fb x.toNat y.toNat = false → u = s)) ∧
    (∀ on, Memory.wf Config.fbSize s.fb →
      ∃ t, exec (.setPixel x y on) s = .next t ∧ exec (.setPixel x y on) t = .next t)

/-- `clear` zeroes all 2048 bytes and emits nothing: it leaves what writing 0x00 to each address in turn leaves; where
the guard fails `FB` keeps its content (R160). -/
def Obligations.ClearZeroes : Prop :=
  ∀ s : State, Memory.wf Config.fbSize s.fb →
    (operational s.ds = true →
      ∃ t, exec .clear s = .next t ∧ t = { s with fb := t.fb } ∧
        t.fb = (List.range 2048).foldl (fun m a => Memory.write m a 0x00) s.fb ∧
        ∀ a, a < 2048 → Memory.read t.fb a = 0x00) ∧
    (operational s.ds = false → exec .clear s = .next s)

/-! ### Lines -/

/-- `draw_line` plots exactly the in-range points of the walk, in its colour, emits nothing, and changes nothing else
but the line registers, whose value is unspecified after it (R170, R171 (g), (h), R25). -/
def Obligations.LinePlots : Prop :=
  ∀ (x0 y0 x1 y1 : Coord) (on : Bool) (s : State), operational s.ds = true → Memory.wf Config.fbSize s.fb →
    ∃ t, exec (.drawLine x0 y0 x1 y1 on) s = .next t ∧
      t = { s with fb := t.fb, work := { s.work with line := t.work.line }, draws := t.draws } ∧
      (∀ px py : Nat, px < 128 → py < 128 → pixelAt t.fb px py =
        if ((px : Int), (py : Int)) ∈ linePoints x0.toInt y0.toInt x1.toInt y1.toInt then on
        else pixelAt s.fb px py) ∧
      ∀ a, 2048 ≤ a → Memory.read t.fb a = Memory.read s.fb a

/-- The walk of a line plots `max(LDX, -LDY) + 1` points, the first its start and the last its end (R171 (a), (b),
derived there); its loop ends by its own end test, not by the bound on plots the model carries: a larger bound plots
the same points. -/
def Obligations.LineCountAndEnds : Prop :=
  ∀ (x0 y0 x1 y1 : Int) (more : Nat),
    (linePoints x0 y0 x1 y1).length = max (x1 - x0).natAbs (y1 - y0).natAbs + 1 ∧
    (linePoints x0 y0 x1 y1).head? = some (x0, y0) ∧
    (linePoints x0 y0 x1 y1).getLast? = some (x1, y1) ∧
    lineWalk (max (x1 - x0).natAbs (y1 - y0).natAbs + 1 + more) (lineStart x0 y0 x1 y1) = linePoints x0 y0 x1 y1

/-- Each step of the walk moves by one in x, in y, or in both (R171 (e), derived there), and by the one sample of
`2 * LERR` that both tests of R170 use: with `p` and `q` consecutive points and `E` the error at `p`, which is
`LDX + LDY` plus `LDY` for each step made in x and `LDX` for each made in y, x moves exactly when `2 * E >= LDY` and y
exactly when `2 * E <= LDX` (R170, D19; log 16). -/
def Obligations.LineStepsByOne : Prop :=
  ∀ (x0 y0 x1 y1 : Int) (k : Nat) (p q : Int × Int),
    (linePoints x0 y0 x1 y1)[k]? = some p → (linePoints x0 y0 x1 y1)[k + 1]? = some q →
      ((q.1 - p.1).natAbs ≤ 1 ∧ (q.2 - p.2).natAbs ≤ 1 ∧ p ≠ q) ∧
      (q.1 ≠ p.1 ↔ -|y1 - y0| ≤
        2 * (|x1 - x0| - |y1 - y0| + |p.1 - x0| * -|y1 - y0| + |p.2 - y0| * |x1 - x0|)) ∧
      (q.2 ≠ p.2 ↔
        2 * (|x1 - x0| - |y1 - y0| + |p.1 - x0| * -|y1 - y0| + |p.2 - y0| * |x1 - x0|) ≤ |x1 - x0|)

/-- A horizontal line plots exactly the points between its ends on its row, a vertical one on its column (R171 (d),
derived there). -/
def Obligations.AxisLines : Prop :=
  ∀ (a b c : Int) (p : Int × Int),
    (p ∈ linePoints a c b c ↔ p.2 = c ∧ min a b ≤ p.1 ∧ p.1 ≤ max a b) ∧
    (p ∈ linePoints c a c b ↔ p.1 = c ∧ min a b ≤ p.2 ∧ p.2 ≤ max a b)

/-- The error register stays within one and a half times the longer side through all the steps of a walk, so 19-bit
signed registers suffice for 16-bit operands (R25, where the spec derives it from R170). -/
def Obligations.LineErrorBounded : Prop :=
  ∀ (x0 y0 x1 y1 : Coord) (k : Nat),
    k ≤ max (x1.toInt - x0.toInt).natAbs (y1.toInt - y0.toInt).natAbs →
      2 * (Nat.repeat lineStep k (lineStart x0.toInt y0.toInt x1.toInt y1.toInt)).lerr.natAbs ≤
        3 * max (x1.toInt - x0.toInt).natAbs (y1.toInt - y0.toInt).natAbs ∧
      (Nat.repeat lineStep k (lineStart x0.toInt y0.toInt x1.toInt y1.toInt)).lerr.natAbs ≤ 98303 ∧
      (Nat.repeat lineStep k (lineStart x0.toInt y0.toInt x1.toInt y1.toInt)).le2.natAbs ≤ 196606

/-! ### Circles -/

/-- `draw_circle` plots exactly the in-range points of its passes, in its colour, emits nothing, and changes nothing
else but the circle registers, whose value is unspecified after it (R173, R174 (i), R26). -/
def Obligations.CirclePlots : Prop :=
  ∀ (x0 y0 r : Coord) (on : Bool) (s : State), operational s.ds = true → Memory.wf Config.fbSize s.fb →
    ∃ t, exec (.drawCircle x0 y0 r on) s = .next t ∧
      t = { s with fb := t.fb, work := { s.work with circle := t.work.circle }, draws := t.draws } ∧
      (∀ px py : Nat, px < 128 → py < 128 → pixelAt t.fb px py =
        if ((px : Int), (py : Int)) ∈ circlePoints x0.toInt y0.toInt r.toInt on then on else pixelAt s.fb px py) ∧
      ∀ a, 2048 ≤ a → Memory.read t.fb a = Memory.read s.fb a

/-- Radius 0 plots the centre alone and a negative radius nothing (R174 (a), (b), derived there). -/
def Obligations.CircleSmallRadii : Prop :=
  ∀ (x0 y0 r : Int) (on : Bool),
    (∀ p, p ∈ circlePoints x0 y0 0 on ↔ p = (x0, y0)) ∧ (r < 0 → circlePoints x0 y0 r on = [])

/-- The points of a circle have the eight-way symmetry about its centre (R173). -/
def Obligations.CircleSymmetric : Prop :=
  ∀ (x0 y0 r a b : Int) (on : Bool), (x0 + a, y0 + b) ∈ circlePoints x0 y0 r on →
    (x0 + b, y0 + a) ∈ circlePoints x0 y0 r on ∧ (x0 - a, y0 + b) ∈ circlePoints x0 y0 r on ∧
    (x0 + a, y0 - b) ∈ circlePoints x0 y0 r on

/-- Which passes a circle makes: the first is at `(CX, CY) = (r, 0)`, the pass after `(CX, CY)` is at `CY + 1` and keeps
`CX` exactly when `CY^2 + 2*CY + 1 + CX^2 - CX <= r^2`, the closed form of `CERR <= 0`, each plots the eight symmetric
points in R173's order, and they go on exactly while `CX >= CY` (R173, D20; log 16). No point lies further from the
centre than the radius, in x or in y; the four points on the axes are plotted; and the loop ends by its own test within
`r + 1` passes, a larger bound plots the same points (R174 (g), (h), derived there). -/
def Obligations.CircleExtent : Prop :=
  ∀ (x0 y0 r : Int) (on : Bool) (more : Nat), 0 ≤ r →
    (∃ passes : List (Int × Int),
      circlePoints x0 y0 r on = passes.flatMap (eightPoints x0 y0) ∧
      passes.head? = some (r, 0) ∧
      (∀ c ∈ passes, c.2 ≤ c.1) ∧
      (∀ (k : Nat) (a b : Int × Int), passes[k]? = some a → passes[k + 1]? = some b → b = circleNextPass r a) ∧
      (∀ a, passes.getLast? = some a → (circleNextPass r a).1 < (circleNextPass r a).2)) ∧
    (∀ p ∈ circlePoints x0 y0 r on, ((p.1 - x0).natAbs : Int) ≤ r ∧ ((p.2 - y0).natAbs : Int) ≤ r) ∧
    (x0 + r, y0) ∈ circlePoints x0 y0 r on ∧ (x0 - r, y0) ∈ circlePoints x0 y0 r on ∧
    (x0, y0 + r) ∈ circlePoints x0 y0 r on ∧ (x0, y0 - r) ∈ circlePoints x0 y0 r on ∧
    circleWalk (r.toNat + 1 + more) (circleStart x0 y0 r on) = circlePoints x0 y0 r on

/-! ### Bitmaps -/

/-- `draw_bitmap` within the host's contract (R180): a set source bit plots its destination in the given colour, a
clear one leaves it, out-of-range destinations are dropped; with a side not positive, and where the guard fails,
nothing at all happens. -/
def Obligations.BitmapStencil : Prop :=
  ∀ (x y w h : Coord) (bitmap : List Byte) (on : Bool) (s : State),
    (operational s.ds = false ∨ w.toInt ≤ 0 ∨ h.toInt ≤ 0 → exec (.drawBitmap x y w h bitmap on) s = .next s) ∧
    (operational s.ds = true → 0 < w.toInt → 0 < h.toInt → Memory.wf Config.fbSize s.fb →
      InContract (.drawBitmap x y w h bitmap on) = true →
      ∃ t, exec (.drawBitmap x y w h bitmap on) s = .next t ∧
        t = { s with fb := t.fb, work := { s.work with blit := t.work.blit }, draws := t.draws } ∧
        (∀ px py : Nat, px < 128 → py < 128 → pixelAt t.fb px py =
          if x.toInt ≤ px ∧ px < x.toInt + w.toInt ∧ y.toInt ≤ py ∧ py < y.toInt + h.toInt ∧
              (bitmap.getD ((py - y.toInt).toNat * ((w.toNat + 7) / 8) + (px - x.toInt).toNat / 8) 0).getLsbD
                (7 - (px - x.toInt).toNat % 8) = true then on
          else pixelAt s.fb px py) ∧
        ∀ a, 2048 ≤ a → Memory.read t.fb a = Memory.read s.fb a)

/-- A bitmap shorter than the contract asks for still draws (U6, log 18: the missing bytes read as any value): no
pixel outside its box changes, none inside takes the other colour, and nothing else changes but the blitter's
registers. -/
def Obligations.BitmapBoxOnly : Prop :=
  ∀ (x y w h : Coord) (bitmap : List Byte) (on : Bool) (s : State), operational s.ds = true →
    0 < w.toInt → 0 < h.toInt → Memory.wf Config.fbSize s.fb →
      ∃ t, exec (.drawBitmap x y w h bitmap on) s = .next t ∧
        t = { s with fb := t.fb, work := { s.work with blit := t.work.blit }, draws := t.draws } ∧
        (∀ px py : Nat, px < 128 → py < 128 →
          (pixelAt t.fb px py = pixelAt s.fb px py ∨ pixelAt t.fb px py = on) ∧
          (¬(x.toInt ≤ px ∧ px < x.toInt + w.toInt ∧ y.toInt ≤ py ∧ py < y.toInt + h.toInt) →
            pixelAt t.fb px py = pixelAt s.fb px py)) ∧
        ∀ a, 2048 ≤ a → Memory.read t.fb a = Memory.read s.fb a

/-- Padding bits at the end of a bitmap's rows are never read: bitmaps that agree on the tested bits act alike (R181
(b), derived there; U15). -/
def Obligations.BitmapPaddingUnread : Prop :=
  ∀ (x y w h : Coord) (b c : List Byte) (on : Bool) (s : State), b.length = c.length →
    (∀ i j : Nat, (i : Int) < w.toInt → (j : Int) < h.toInt →
      (b.getD (j * ((w.toNat + 7) / 8) + i / 8) 0).getLsbD (7 - i % 8) =
        (c.getD (j * ((w.toNat + 7) / 8) + i / 8) 0).getLsbD (7 - i % 8)) →
    exec (.drawBitmap x y w h b on) s = exec (.drawBitmap x y w h c on) s

/-! ### Characters and strings -/

/-- `draw_char` (R183, R184): a valid code writes every cell of its 5 by 8 box with the glyph's bit, top row from bit
0, those out of range dropped; an invalid code, and every code where the guard fails, is a silent no-op. -/
def Obligations.CharCells : Prop :=
  ∀ (x y : Coord) (c : Byte) (s : State),
    (operational s.ds = false ∨ c.toNat < 32 ∨ 127 < c.toNat → exec (.drawChar x y c) s = .next s) ∧
    (operational s.ds = true → 32 ≤ c.toNat → c.toNat ≤ 127 → Memory.wf Config.fbSize s.fb →
      ∃ t, exec (.drawChar x y c) s = .next t ∧
        t = { s with fb := t.fb, work := { s.work with glyph := t.work.glyph }, draws := t.draws } ∧
        (∀ px py : Nat, px < 128 → py < 128 → pixelAt t.fb px py =
          if x.toInt ≤ px ∧ px < x.toInt + 5 ∧ y.toInt ≤ py ∧ py < y.toInt + 8 then
            (Memory.read s.font ((c.toNat - 32) * 5 + (px - x.toInt).toNat)).getLsbD (py - y.toInt).toNat
          else pixelAt s.fb px py) ∧
        ∀ a, 2048 ≤ a → Memory.read t.fb a = Memory.read s.fb a)

/-- On a page boundary and wholly in range, the glyph's columns become the bytes of the page (R185 (b), derived
there). -/
def Obligations.CharAlignedBytes : Prop :=
  ∀ (x y : Coord) (c : Byte) (s : State), operational s.ds = true → 32 ≤ c.toNat → c.toNat ≤ 127 →
    Memory.wf Config.fbSize s.fb → x.toNat ≤ 123 → y.toNat < 128 → y.toNat % 8 = 0 →
      ∃ t, exec (.drawChar x y c) s = .next t ∧
        ∀ col, col < 5 → Memory.read t.fb (y.toNat / 8 * 128 + x.toNat + col) =
          Memory.read s.font ((c.toNat - 32) * 5 + col)

/-- Drawing a character over another replaces it: the framebuffer is as if the second alone had been drawn (R185 (a),
derived there). -/
def Obligations.CharReplaces : Prop :=
  ∀ (x y : Coord) (c d : Byte) (s : State), operational s.ds = true → 32 ≤ d.toNat → d.toNat ≤ 127 →
    Memory.wf Config.fbSize s.fb →
      ∃ t u v, exec (.drawChar x y c) s = .next t ∧ exec (.drawChar x y d) t = .next u ∧
        exec (.drawChar x y d) s = .next v ∧ u.fb = v.fb

/-- `draw_string` within the host's contract (R186, R187): character `k` is drawn at `x + 6k` while that is left of
the framebuffer's width, an invalid code draws nothing and still advances, the gap columns and all other pixels stay.
-/
def Obligations.StringPixels : Prop :=
  ∀ (x y : Coord) (n : Nat) (codes : List Byte) (s : State),
    (operational s.ds = false → exec (.drawString x y n codes) s = .next s) ∧
    (operational s.ds = true → Memory.wf Config.fbSize s.fb → InContract (.drawString x y n codes) = true →
      ∃ t, exec (.drawString x y n codes) s = .next t ∧
        t = { s with fb := t.fb, work := { s.work with glyph := t.work.glyph, text := t.work.text },
                     draws := t.draws } ∧
        (∀ px py : Nat, px < 128 → py < 128 → pixelAt t.fb px py =
          if x.toInt ≤ px ∧ ((px : Int) - x.toInt) / 6 < n ∧ ((px : Int) - x.toInt) % 6 < 5 ∧
              y.toInt ≤ py ∧ py < y.toInt + 8 ∧
              32 ≤ (codes.getD (((px : Int) - x.toInt) / 6).toNat 0).toNat ∧
              (codes.getD (((px : Int) - x.toInt) / 6).toNat 0).toNat ≤ 127 then
            (Memory.read s.font
              (((codes.getD (((px : Int) - x.toInt) / 6).toNat 0).toNat - 32) * 5 +
                (((px : Int) - x.toInt) % 6).toNat)).getLsbD (py - y.toInt).toNat
          else pixelAt s.fb px py) ∧
        ∀ a, 2048 ≤ a → Memory.read t.fb a = Memory.read s.fb a)

/-- A string shorter in memory than its length says still draws (U6, log 18): only pixels of the cells of its
characters change, and nothing else changes but the glyph and string registers. -/
def Obligations.StringCellsOnly : Prop :=
  ∀ (x y : Coord) (n : Nat) (codes : List Byte) (s : State), operational s.ds = true →
    Memory.wf Config.fbSize s.fb →
      ∃ t, exec (.drawString x y n codes) s = .next t ∧
        t = { s with fb := t.fb, work := { s.work with glyph := t.work.glyph, text := t.work.text },
                     draws := t.draws } ∧
        (∀ px py : Nat, px < 128 → py < 128 →
          ¬(x.toInt ≤ px ∧ ((px : Int) - x.toInt) / 6 < n ∧ ((px : Int) - x.toInt) % 6 < 5 ∧
            y.toInt ≤ py ∧ py < y.toInt + 8) →
          pixelAt t.fb px py = pixelAt s.fb px py) ∧
        ∀ a, 2048 ≤ a → Memory.read t.fb a = Memory.read s.fb a

/-- A string draws as its first character followed by the rest of the string six columns further on (R186, R95 (d)).
-/
def Obligations.StringIsCharThenRest : Prop :=
  ∀ (x y : Coord) (c : Byte) (codes : List Byte) (s : State), operational s.ds = true → x.toInt < 128 →
    ∃ t u v, exec (.drawChar x y c) s = .next t ∧ exec (.drawString (x + 6) y codes.length codes) t = .next u ∧
      exec (.drawString x y (codes.length + 1) (c :: codes)) s = .next v ∧ v.fb = u.fb

/-- A string draws exactly the prefix of it whose cursors lie left of the framebuffer's width (R187 (g), derived
there). -/
def Obligations.StringPrefix : Prop :=
  ∀ (x y : Coord) (codes : List Byte) (s : State),
    ∃ t u, exec (.drawString x y codes.length codes) s = .next t ∧
      exec (.drawString x y (min codes.length ((128 - x.toInt + 5) / 6).toNat)
        (codes.take (min codes.length ((128 - x.toInt + 5) / 6).toNat))) s = .next u ∧
      t.fb = u.fb

/-! ### Flush -/

/-- `flush` in an operational state emits, for each page in ascending order, its three addressing commands and its 128
bytes in one write, and changes nothing else but the page counter, whose value is unspecified after it (R195, R27). -/
def Obligations.FlushEmits : Prop :=
  ∀ s : State,
    (operational s.ds = true →
      ∃ t, exec .flush s = .next t ∧
        t = { s with trace := s.trace ++ (List.range 16).flatMap (pageEvents s.fb)
                     pins := { s.pins with mode := .data }
                     work := { s.work with pg := t.work.pg }
                     draws := t.draws }) ∧
    (operational s.ds = false → exec .flush s = .next s)

/-- Two flushes with no drawing between them append the same events (R196 (d) and R63, derived there). -/
def Obligations.FlushTwiceSame : Prop :=
  ∀ s : State, ∃ t u es, exec .flush s = .next t ∧ exec .flush t = .next u ∧
    t.trace = s.trace ++ es ∧ u.trace = s.trace ++ es ++ es

/-- The bytes of a flush, flattened: 48 command bytes, and all 2048 bytes of `FB` in ascending order (R195, R196 (b),
(e), R32). -/
def Obligations.FlushStream : Prop :=
  ∀ (s : State) (mode : TransportMode), operational s.ds = true →
    ∃ t es, exec .flush s = .next t ∧ t.trace = s.trace ++ es ∧
      commandBytes (flatten mode es) =
        (List.range 16).flatMap (fun p => [0xB0#8 ||| BitVec.ofNat 8 p, 0x00, 0x10]) ∧
      dataBytes (flatten mode es) = (List.range 2048).map (Memory.read s.fb)

/-- `clear` then `flush`: each page's addressing commands and 128 zero bytes, pages ascending (R197). -/
def Obligations.ClearThenFlush : Prop :=
  ∀ s : State, operational s.ds = true → Memory.wf Config.fbSize s.fb →
    ∃ t u, exec .clear s = .next t ∧ exec .flush t = .next u ∧
      u.trace = s.trace ++ (List.range 16).flatMap fun p =>
        [.selCmd, .write [0xB0#8 ||| BitVec.ofNat 8 p], .selCmd, .write [0x00], .selCmd, .write [0x10], .selData,
          .write (List.replicate 128 0x00)]

/-! ### The machine -/

/-- A step runs the oldest request: the instruction it decodes to, with the request taken off the port; it waits when
there is none; and what is no instruction is refused by name (R14, R206, R230; the port is the model's, log 2). -/
def Obligations.StepRunsDecoded : Prop :=
  (∀ (s : State) (r : Request) (rest : List Request) (i : Instr), s.port = r :: rest → decode r = .ok i →
    step s = exec i { s with port := rest }) ∧
  (∀ s : State, s.port = [] → step s = .next s) ∧
  (∀ (s : State) (r : Request) (rest : List Request) (e : DecodeError), s.port = r :: rest → decode r = .error e →
    step s = .refused (.noInstruction e))

/-- `OPSEL` codes 11 to 15 select no operation and are refused, whatever follows them (R91; the `OPSEL` byte: log 3).
-/
def Obligations.ReservedOpselRefused : Prop :=
  ∀ (s : State) (code : Byte) (args : List Byte) (rest : List Request), 11 ≤ code.toNat → code.toNat ≤ 15 →
    s.port = ⟨.operation, code :: args⟩ :: rest →
      step s = .refused (.noInstruction (.reservedOpsel code.toNat))

/-- Every instruction, in every state, answers a next state: the core never raises, traps, reports or stops (R200). It
covers two choices of the model: the command rows run at all (log 4), and a bitmap or string that is short in memory
runs where U6 allows a refusal (log 18). -/
def Obligations.ExecAlwaysRuns : Prop :=
  ∀ (i : Instr) (s : State), Runs (exec i s)

/-- The core after construction: `Uninitialized` (R20, R33), the configuration latched (R33, R230), nothing emitted
(R31, R230). What R33 leaves unspecified is free (logs 7, 10, 11); that State.reset takes its configuration from the
opaque CFG_INIT is the model's form of it (log 8). -/
def Obligations.ResetState : Prop :=
  (∀ config, (State.construct config).ds = .uninitialized ∧ (State.construct config).cfg = config ∧
    (State.construct config).trace = []) ∧
  State.reset = State.construct Config.cfgInit

/-- A core is constructed only from a geometry and fields within their widths, and latches exactly those numbers (R206
(1), (2), R22, R230; the form of the check: log 25). -/
def Obligations.ConstructionValidates : Prop :=
  (∀ (c : RawConfig) (s : State), State.new c = some s →
    c.width % 8 = 0 ∧ c.height % 8 = 0 ∧ s.ds = .uninitialized ∧ s.trace = [] ∧
    s.cfg.column.toNat = c.column ∧ s.cfg.page.toNat = c.page ∧ s.cfg.startLine.toNat = c.startLine ∧
    s.cfg.contrast.toNat = c.contrast ∧ s.cfg.muxRatio.toNat = c.muxRatio ∧ s.cfg.offset.toNat = c.offset ∧
    s.cfg.clockDivide.toNat = c.clockDivide ∧ s.cfg.chargePeriod.toNat = c.chargePeriod ∧
    s.cfg.vcomLevel.toNat = c.vcomLevel ∧ s.cfg.remap.toNat = c.remap ∧
    s.cfg.scanDirection.toNat = c.scanDirection) ∧
  ∀ d : DisplayConfig, (State.new ⟨128, 128, d.column.toNat, d.page.toNat, d.startLine.toNat, d.contrast.toNat,
    d.muxRatio.toNat, d.offset.toNat, d.clockDivide.toNat, d.chargePeriod.toNat, d.vcomLevel.toNat, d.remap.toNat,
    d.scanDirection.toNat⟩) = some (State.construct d)

/-- The invariant holds after construction (the form of memory and the free bytes of `FB`: log 7). -/
def Obligations.InvariantAtReset : Prop := State.reset.Inv

/-- Every step keeps the invariant: the memories in canonical form and in range, `DS` stable, each write selected
(R20, R24, R54, R30). -/
def Obligations.StepKeepsInvariant : Prop :=
  ∀ s t : State, s.Inv → step s = .next t → t.Inv

/-- A step only appends events to the trace, and the mode and the reset line move exactly as those events drive them
(R30, R31, R214). -/
def Obligations.TraceOnlyGrows : Prop :=
  ∀ s t : State, step s = .next t → ∃ es, t.trace = s.trace ++ es ∧ t.pins = pinsAfter s.pins es

/-- No step writes the configuration, the glyph table or the DC-DC parameter (R22, R28, R66). -/
def Obligations.ConfigurationNeverWritten : Prop :=
  ∀ s t : State, step s = .next t → t.cfg = s.cfg ∧ t.font = s.font ∧ t.initDcdc = s.initDcdc

/-- Who may change what (R20, R34, R50, R63): `FB` only a drawing operation, which emits nothing and leaves `DS`; the
trace only `initialize`, `deinitialize`, a command sent, or `flush`; `DS` only the first three. -/
def Obligations.OwnersOnly : Prop :=
  ∀ (i : Instr) (s t : State), exec i s = .next t →
    (i.draws = true → t.trace = s.trace ∧ t.pins = s.pins ∧ t.ds = s.ds) ∧
    (i.draws = false → t.fb = s.fb) ∧
    (i = .flush → t.ds = s.ds)

/-- The content of the working registers reaches nothing else: what an instruction does to the rest of the state does
not depend on them (R25, R26, R27). -/
def Obligations.WorkRegistersUnread : Prop :=
  ∀ (i : Instr) (s : State) (w : WorkRegs),
    ∃ t u, exec i s = .next t ∧ exec i { s with work := w } = .next u ∧ u = { t with work := u.work }

/-- `FB` reaches nothing outside itself but through `flush` (R51). -/
def Obligations.FbLeavesOnlyByFlush : Prop :=
  ∀ (i : Instr) (s : State) (m : List Host.Cell), i ≠ .flush →
    ∃ t u, exec i s = .next t ∧ exec i { s with fb := m } = .next u ∧ u = { t with fb := u.fb }
end

