-- ==== Sys2Proof/Laws/Memory.lean ====
section
/-! SUPPORT. What the memory operations do (R24, R50, R56): a read after a write, the canonical form, and that equal
contents are equal data. -/

namespace Sys2Proof.Machine

open Host (Cell)

theorem Memory.wf_nil (size : Nat) : Memory.wf size [] := by simp [Memory.wf]

theorem Memory.wf_cons {size : Nat} {c : Cell} {m : List Cell} :
    Memory.wf size (c :: m) ↔
      (∀ d ∈ m, c.1 < d.1) ∧ c.1 < size ∧ c.2 ≠ Memory.unlisted ∧ Memory.wf size m := by
  simp only [Memory.wf, List.pairwise_cons, List.forall_mem_cons]
  tauto

theorem Memory.wf_tail {size : Nat} {c : Cell} {m : List Cell} (h : Memory.wf size (c :: m)) : Memory.wf size m :=
  (Memory.wf_cons.mp h).2.2.2

/-- An address below all that are listed reads as an unlisted one. -/
theorem Memory.read_below {m : List Cell} {a : Nat} (h : ∀ c ∈ m, a < c.1) : Memory.read m a = Memory.unlisted := by
  induction m with
  | nil => rfl
  | cons c m ih =>
    have hc : c.1 ≠ a := by have := h c (by simp); omega
    simp only [Memory.read, hc, if_false]
    exact ih fun d hd => h d (by simp [hd])

/-- No address outside the memory is listed. -/
theorem Memory.read_outside {size : Nat} {m : List Cell} (h : Memory.wf size m) {a : Nat} (ha : size ≤ a) :
    Memory.read m a = Memory.unlisted := by
  induction m with
  | nil => rfl
  | cons c m ih =>
    have hc := Memory.wf_cons.mp h
    have : c.1 ≠ a := by have := hc.2.1; omega
    simp only [Memory.read, this, if_false]
    exact ih hc.2.2.2

/-- A read after a write gives the value written at that address and what was there at every other. -/
theorem Memory.read_write {size : Nat} {m : List Cell} (h : Memory.wf size m) (a b : Nat) (v : Byte) :
    Memory.read (Memory.write m a v) b = if b = a then v else Memory.read m b := by
  induction m with
  | nil =>
    by_cases hv : v = Memory.unlisted <;> by_cases hb : b = a <;> simp_all [Memory.write, Memory.read, eq_comm]
  | cons c m ih =>
    obtain ⟨k, w⟩ := c
    have hc := Memory.wf_cons.mp h
    have hlow : a < k → Memory.read ((k, w) :: m) a = Memory.unlisted := fun hak =>
      Memory.read_below fun d hd => by
        rcases List.mem_cons.mp hd with rfl | hd
        · exact hak
        · exact lt_trans hak (hc.1 d hd)
    simp only [Memory.write]
    split
    · next hak =>
      split
      · next hv => by_cases hb : b = a
                   · subst hb; rw [if_pos rfl, hlow hak, hv]
                   · rw [if_neg hb]
      · by_cases hb : b = a
        · subst hb; simp [Memory.read]
        · rw [Memory.read, if_neg (Ne.symm hb), if_neg hb]
    · split
      · next _ hak =>
        subst hak
        have hm : Memory.read m a = Memory.unlisted := Memory.read_below hc.1
        split
        · next hv =>
          by_cases hb : b = a
          · subst hb; rw [if_pos rfl, hm, hv]
          · simp [Memory.read, hb, Ne.symm hb]
        · by_cases hb : b = a
          · subst hb; simp [Memory.read]
          · simp [Memory.read, hb, Ne.symm hb]
      · by_cases hb : b = k
        · subst hb
          have : b ≠ a := by omega
          simp [Memory.read, this]
        · simp only [Memory.read, Ne.symm hb, if_false]
          exact ih hc.2.2.2

theorem Memory.mem_write {m : List Cell} {a : Nat} {v : Byte} {c : Cell} (h : c ∈ Memory.write m a v) :
    c ∈ m ∨ (c = (a, v) ∧ v ≠ Memory.unlisted) := by
  induction m with
  | nil => by_cases hv : v = Memory.unlisted <;> simp_all [Memory.write]
  | cons d m ih =>
    obtain ⟨k, w⟩ := d
    simp only [Memory.write] at h
    repeat' split at h
    all_goals simp only [List.mem_cons] at h ⊢
    · tauto
    · tauto
    · tauto
    · tauto
    · rcases h with h | h
      · tauto
      · have := ih h; tauto

/-- Writing inside the memory keeps its canonical form. -/
theorem Memory.write_wf {size : Nat} {m : List Cell} (h : Memory.wf size m) {a : Nat} (ha : a < size) (v : Byte) :
    Memory.wf size (Memory.write m a v) := by
  induction m with
  | nil => by_cases hv : v = Memory.unlisted <;> simp_all [Memory.write, Memory.wf]
  | cons c m ih =>
    obtain ⟨k, w⟩ := c
    have hc := Memory.wf_cons.mp h
    simp only [Memory.write]
    split
    · next hak =>
      split
      · exact h
      · next hv =>
        refine Memory.wf_cons.mpr ⟨fun d hd => ?_, ha, hv, h⟩
        rcases List.mem_cons.mp hd with rfl | hd
        · exact hak
        · exact lt_trans hak (hc.1 d hd)
    · split
      · next hak =>
        split
        · exact hc.2.2.2
        · next hv => exact Memory.wf_cons.mpr ⟨fun d hd => hak ▸ hc.1 d hd, ha, hv, hc.2.2.2⟩
      · refine Memory.wf_cons.mpr ⟨fun d hd => ?_, hc.2.1, hc.2.2.1, ih hc.2.2.2⟩
        rcases Memory.mem_write hd with hd | ⟨rfl, -⟩
        · exact hc.1 d hd
        · show k < a
          omega

/-- Two memories in canonical form with the same contents are the same list. -/
theorem Memory.ext {size : Nat} {m n : List Cell} (hm : Memory.wf size m) (hn : Memory.wf size n)
    (h : ∀ a, Memory.read m a = Memory.read n a) : m = n := by
  induction m generalizing n with
  | nil =>
    cases n with
    | nil => rfl
    | cons d n =>
      have hd := Memory.wf_cons.mp hn
      exact absurd (by simpa [Memory.read] using (h d.1).symm) hd.2.2.1
  | cons c m ih =>
    have hc := Memory.wf_cons.mp hm
    cases n with
    | nil => exact absurd (by simpa [Memory.read] using h c.1) hc.2.2.1
    | cons d n =>
      have hd := Memory.wf_cons.mp hn
      have hkey : c.1 = d.1 := by
        rcases lt_trichotomy c.1 d.1 with hlt | heq | hlt
        · exfalso
          have h1 : Memory.read (d :: n) c.1 = Memory.unlisted := Memory.read_below fun e he => by
            rcases List.mem_cons.mp he with rfl | he
            · exact hlt
            · exact lt_trans hlt (hd.1 e he)
          have h2 := h c.1
          rw [h1] at h2
          exact hc.2.2.1 (by simpa [Memory.read] using h2)
        · exact heq
        · exfalso
          have h1 : Memory.read (c :: m) d.1 = Memory.unlisted := Memory.read_below fun e he => by
            rcases List.mem_cons.mp he with rfl | he
            · exact hlt
            · exact lt_trans hlt (hc.1 e he)
          have h2 := h d.1
          rw [h1] at h2
          exact hd.2.2.1 (by simpa [Memory.read] using h2.symm)
      have hval : c.2 = d.2 := by
        have := h c.1
        simpa [Memory.read, hkey] using this
      have hcd : c = d := Prod.ext hkey hval
      subst hcd
      congr 1
      refine ih hc.2.2.2 hd.2.2.2 fun a => ?_
      by_cases ha : c.1 = a
      · subst ha; rw [Memory.read_below hc.1, Memory.read_below hd.1]
      · have := h a
        simpa [Memory.read, ha] using this

/-- Writing the byte an address already holds changes nothing. -/
theorem Memory.write_read {size : Nat} {m : List Cell} (h : Memory.wf size m) {a : Nat} (ha : a < size) :
    Memory.write m a (Memory.read m a) = m :=
  Memory.ext (Memory.write_wf h ha _) h fun b => by
    rw [Memory.read_write h]; split
    · next hb => rw [hb]
    · rfl

theorem Memory.mem_ofFn {size : Nat} {f : Nat → Byte} {c : Cell} (h : c ∈ Memory.ofFn size f) :
    c.1 < size ∧ c.2 = f c.1 ∧ f c.1 ≠ Memory.unlisted := by
  rw [Memory.ofFn, List.mem_filterMap] at h
  obtain ⟨a, ha, h⟩ := h
  split at h
  · exact absurd h (by simp)
  · next hf => cases h; exact ⟨List.mem_range.mp ha, rfl, hf⟩

theorem Memory.ofFn_wf (size : Nat) (f : Nat → Byte) : Memory.wf size (Memory.ofFn size f) := by
  refine ⟨?_, fun c hc => ?_⟩
  · rw [Memory.ofFn, List.pairwise_filterMap]
    refine List.pairwise_lt_range.imp fun {a b} hab c hc d hd => ?_
    split at hc <;> split at hd <;> simp_all [eq_comm]
  · obtain ⟨h1, h2, h3⟩ := Memory.mem_ofFn hc
    exact ⟨h1, h2 ▸ h3⟩

theorem Memory.read_listed (f : Nat → Byte) (a : Nat) (l : List Nat) :
    Memory.read (l.filterMap fun a => if f a = Memory.unlisted then none else some (a, f a)) a =
      if a ∈ l then f a else Memory.unlisted := by
  induction l with
  | nil => rfl
  | cons b l ih =>
    by_cases hf : f b = Memory.unlisted
    · simp only [List.filterMap_cons, hf, if_true, ih, List.mem_cons]
      by_cases hab : a = b
      · subst hab; simp [hf]
      · simp [hab]
    · simp only [List.filterMap_cons, hf, if_false, Memory.read, ih, List.mem_cons]
      by_cases hab : a = b
      · simp [hab]
      · simp [hab, Ne.symm hab]

/-- A memory built from a function holds its bytes. -/
theorem Memory.read_ofFn {size : Nat} {f : Nat → Byte} {a : Nat} (ha : a < size) :
    Memory.read (Memory.ofFn size f) a = f a := by
  rw [Memory.ofFn, Memory.read_listed, if_pos (List.mem_range.mpr ha)]

end Sys2Proof.Machine
end

