-- ==== Sys2Proof/Laws/State.lean ====
section
/-! SUPPORT. One lemma for each field of State under each update, all by definition. -/

namespace Sys2Proof.Machine

variable (s : State)

@[simp] theorem State.emit_ds (e : Event) : (s.emit e).ds = s.ds := rfl
@[simp] theorem State.emit_cfg (e : Event) : (s.emit e).cfg = s.cfg := rfl
@[simp] theorem State.emit_initDcdc (e : Event) : (s.emit e).initDcdc = s.initDcdc := rfl
@[simp] theorem State.emit_fb (e : Event) : (s.emit e).fb = s.fb := rfl
@[simp] theorem State.emit_font (e : Event) : (s.emit e).font = s.font := rfl
@[simp] theorem State.emit_work (e : Event) : (s.emit e).work = s.work := rfl
@[simp] theorem State.emit_trace (e : Event) : (s.emit e).trace = s.trace ++ [e] := rfl
@[simp] theorem State.emit_pins (e : Event) : (s.emit e).pins = s.pins.drive e := rfl
@[simp] theorem State.emit_port (e : Event) : (s.emit e).port = s.port := rfl
@[simp] theorem State.emit_draws (e : Event) : (s.emit e).draws = s.draws := rfl

@[simp] theorem State.setDs_ds (d : DeviceState) : (s.setDs d).ds = d := rfl
@[simp] theorem State.setDs_cfg (d : DeviceState) : (s.setDs d).cfg = s.cfg := rfl
@[simp] theorem State.setDs_initDcdc (d : DeviceState) : (s.setDs d).initDcdc = s.initDcdc := rfl
@[simp] theorem State.setDs_fb (d : DeviceState) : (s.setDs d).fb = s.fb := rfl
@[simp] theorem State.setDs_font (d : DeviceState) : (s.setDs d).font = s.font := rfl
@[simp] theorem State.setDs_work (d : DeviceState) : (s.setDs d).work = s.work := rfl
@[simp] theorem State.setDs_trace (d : DeviceState) : (s.setDs d).trace = s.trace := rfl
@[simp] theorem State.setDs_pins (d : DeviceState) : (s.setDs d).pins = s.pins := rfl
@[simp] theorem State.setDs_port (d : DeviceState) : (s.setDs d).port = s.port := rfl
@[simp] theorem State.setDs_draws (d : DeviceState) : (s.setDs d).draws = s.draws := rfl

@[simp] theorem State.plot_ds (ps : List Plot) : (s.plot ps).ds = s.ds := rfl
@[simp] theorem State.plot_cfg (ps : List Plot) : (s.plot ps).cfg = s.cfg := rfl
@[simp] theorem State.plot_initDcdc (ps : List Plot) : (s.plot ps).initDcdc = s.initDcdc := rfl
@[simp] theorem State.plot_fb (ps : List Plot) : (s.plot ps).fb = plotAll s.fb ps := rfl
@[simp] theorem State.plot_font (ps : List Plot) : (s.plot ps).font = s.font := rfl
@[simp] theorem State.plot_work (ps : List Plot) : (s.plot ps).work = s.work := rfl
@[simp] theorem State.plot_trace (ps : List Plot) : (s.plot ps).trace = s.trace := rfl
@[simp] theorem State.plot_pins (ps : List Plot) : (s.plot ps).pins = s.pins := rfl
@[simp] theorem State.plot_port (ps : List Plot) : (s.plot ps).port = s.port := rfl
@[simp] theorem State.plot_draws (ps : List Plot) : (s.plot ps).draws = s.draws := rfl

@[simp] theorem State.leaveLine_ds : s.leaveLine.ds = s.ds := rfl
@[simp] theorem State.leaveLine_cfg : s.leaveLine.cfg = s.cfg := rfl
@[simp] theorem State.leaveLine_initDcdc : s.leaveLine.initDcdc = s.initDcdc := rfl
@[simp] theorem State.leaveLine_fb : s.leaveLine.fb = s.fb := rfl
@[simp] theorem State.leaveLine_font : s.leaveLine.font = s.font := rfl
@[simp] theorem State.leaveLine_work : s.leaveLine.work = { s.work with line := LineRegs.free s.draws } := rfl
@[simp] theorem State.leaveLine_trace : s.leaveLine.trace = s.trace := rfl
@[simp] theorem State.leaveLine_pins : s.leaveLine.pins = s.pins := rfl
@[simp] theorem State.leaveLine_port : s.leaveLine.port = s.port := rfl
@[simp] theorem State.leaveLine_draws : s.leaveLine.draws = s.draws + 1 := rfl

@[simp] theorem State.leaveCircle_ds : s.leaveCircle.ds = s.ds := rfl
@[simp] theorem State.leaveCircle_cfg : s.leaveCircle.cfg = s.cfg := rfl
@[simp] theorem State.leaveCircle_initDcdc : s.leaveCircle.initDcdc = s.initDcdc := rfl
@[simp] theorem State.leaveCircle_fb : s.leaveCircle.fb = s.fb := rfl
@[simp] theorem State.leaveCircle_font : s.leaveCircle.font = s.font := rfl
@[simp] theorem State.leaveCircle_work : s.leaveCircle.work = { s.work with circle := CircleRegs.free s.draws } := rfl
@[simp] theorem State.leaveCircle_trace : s.leaveCircle.trace = s.trace := rfl
@[simp] theorem State.leaveCircle_pins : s.leaveCircle.pins = s.pins := rfl
@[simp] theorem State.leaveCircle_port : s.leaveCircle.port = s.port := rfl
@[simp] theorem State.leaveCircle_draws : s.leaveCircle.draws = s.draws + 1 := rfl

@[simp] theorem State.leaveBlit_ds : s.leaveBlit.ds = s.ds := rfl
@[simp] theorem State.leaveBlit_cfg : s.leaveBlit.cfg = s.cfg := rfl
@[simp] theorem State.leaveBlit_initDcdc : s.leaveBlit.initDcdc = s.initDcdc := rfl
@[simp] theorem State.leaveBlit_fb : s.leaveBlit.fb = s.fb := rfl
@[simp] theorem State.leaveBlit_font : s.leaveBlit.font = s.font := rfl
@[simp] theorem State.leaveBlit_work : s.leaveBlit.work = { s.work with blit := BlitRegs.free s.draws } := rfl
@[simp] theorem State.leaveBlit_trace : s.leaveBlit.trace = s.trace := rfl
@[simp] theorem State.leaveBlit_pins : s.leaveBlit.pins = s.pins := rfl
@[simp] theorem State.leaveBlit_port : s.leaveBlit.port = s.port := rfl
@[simp] theorem State.leaveBlit_draws : s.leaveBlit.draws = s.draws + 1 := rfl

@[simp] theorem State.leaveGlyph_ds : s.leaveGlyph.ds = s.ds := rfl
@[simp] theorem State.leaveGlyph_cfg : s.leaveGlyph.cfg = s.cfg := rfl
@[simp] theorem State.leaveGlyph_initDcdc : s.leaveGlyph.initDcdc = s.initDcdc := rfl
@[simp] theorem State.leaveGlyph_fb : s.leaveGlyph.fb = s.fb := rfl
@[simp] theorem State.leaveGlyph_font : s.leaveGlyph.font = s.font := rfl
@[simp] theorem State.leaveGlyph_work : s.leaveGlyph.work = { s.work with glyph := GlyphRegs.free s.draws } := rfl
@[simp] theorem State.leaveGlyph_trace : s.leaveGlyph.trace = s.trace := rfl
@[simp] theorem State.leaveGlyph_pins : s.leaveGlyph.pins = s.pins := rfl
@[simp] theorem State.leaveGlyph_port : s.leaveGlyph.port = s.port := rfl
@[simp] theorem State.leaveGlyph_draws : s.leaveGlyph.draws = s.draws + 1 := rfl

@[simp] theorem State.leaveText_ds : s.leaveText.ds = s.ds := rfl
@[simp] theorem State.leaveText_cfg : s.leaveText.cfg = s.cfg := rfl
@[simp] theorem State.leaveText_initDcdc : s.leaveText.initDcdc = s.initDcdc := rfl
@[simp] theorem State.leaveText_fb : s.leaveText.fb = s.fb := rfl
@[simp] theorem State.leaveText_font : s.leaveText.font = s.font := rfl
@[simp] theorem State.leaveText_work : s.leaveText.work = { s.work with glyph := GlyphRegs.free s.draws, text := TextRegs.free s.draws } := rfl
@[simp] theorem State.leaveText_trace : s.leaveText.trace = s.trace := rfl
@[simp] theorem State.leaveText_pins : s.leaveText.pins = s.pins := rfl
@[simp] theorem State.leaveText_port : s.leaveText.port = s.port := rfl
@[simp] theorem State.leaveText_draws : s.leaveText.draws = s.draws + 1 := rfl

@[simp] theorem State.leaveFlush_ds : s.leaveFlush.ds = s.ds := rfl
@[simp] theorem State.leaveFlush_cfg : s.leaveFlush.cfg = s.cfg := rfl
@[simp] theorem State.leaveFlush_initDcdc : s.leaveFlush.initDcdc = s.initDcdc := rfl
@[simp] theorem State.leaveFlush_fb : s.leaveFlush.fb = s.fb := rfl
@[simp] theorem State.leaveFlush_font : s.leaveFlush.font = s.font := rfl
@[simp] theorem State.leaveFlush_work : s.leaveFlush.work = { s.work with pg := freePg s.draws } := rfl
@[simp] theorem State.leaveFlush_trace : s.leaveFlush.trace = s.trace := rfl
@[simp] theorem State.leaveFlush_pins : s.leaveFlush.pins = s.pins := rfl
@[simp] theorem State.leaveFlush_port : s.leaveFlush.port = s.port := rfl
@[simp] theorem State.leaveFlush_draws : s.leaveFlush.draws = s.draws + 1 := rfl

@[simp] theorem State.place_ds (r : Request) : (s.place r).ds = s.ds := rfl
@[simp] theorem State.place_cfg (r : Request) : (s.place r).cfg = s.cfg := rfl
@[simp] theorem State.place_initDcdc (r : Request) : (s.place r).initDcdc = s.initDcdc := rfl
@[simp] theorem State.place_fb (r : Request) : (s.place r).fb = s.fb := rfl
@[simp] theorem State.place_font (r : Request) : (s.place r).font = s.font := rfl
@[simp] theorem State.place_work (r : Request) : (s.place r).work = s.work := rfl
@[simp] theorem State.place_trace (r : Request) : (s.place r).trace = s.trace := rfl
@[simp] theorem State.place_pins (r : Request) : (s.place r).pins = s.pins := rfl
@[simp] theorem State.place_port (r : Request) : (s.place r).port = r :: s.port := rfl
@[simp] theorem State.place_draws (r : Request) : (s.place r).draws = s.draws := rfl

@[simp] theorem State.afterSending_ds (bs : List Byte) : (s.afterSending bs).ds = s.ds := rfl
@[simp] theorem State.afterSending_cfg (bs : List Byte) : (s.afterSending bs).cfg = s.cfg := rfl
@[simp] theorem State.afterSending_initDcdc (bs : List Byte) : (s.afterSending bs).initDcdc = s.initDcdc := rfl
@[simp] theorem State.afterSending_fb (bs : List Byte) : (s.afterSending bs).fb = s.fb := rfl
@[simp] theorem State.afterSending_font (bs : List Byte) : (s.afterSending bs).font = s.font := rfl
@[simp] theorem State.afterSending_work (bs : List Byte) : (s.afterSending bs).work = s.work := rfl
@[simp] theorem State.afterSending_trace (bs : List Byte) : (s.afterSending bs).trace = s.trace ++ [.selCmd, .write bs] := rfl
@[simp] theorem State.afterSending_pins (bs : List Byte) : (s.afterSending bs).pins = { s.pins with mode := .command } := rfl
@[simp] theorem State.afterSending_port (bs : List Byte) : (s.afterSending bs).port = s.port := rfl
@[simp] theorem State.afterSending_draws (bs : List Byte) : (s.afterSending bs).draws = s.draws := rfl

/-! Construction (R33). -/

@[simp] theorem State.reset_ds : State.reset.ds = .uninitialized := rfl
@[simp] theorem State.reset_cfg : State.reset.cfg = Config.cfgInit := rfl
@[simp] theorem State.reset_initDcdc : State.reset.initDcdc = 1 := rfl
theorem State.reset_fb : State.reset.fb = Memory.ofFn Config.fbSize Config.fbInit := rfl
theorem State.reset_font : State.reset.font = Memory.ofFn Config.fontSize Config.fontInit := rfl
@[simp] theorem State.reset_trace : State.reset.trace = [] := rfl
@[simp] theorem State.reset_port : State.reset.port = [] := rfl
@[simp] theorem State.reset_pins : State.reset.pins = ⟨Config.modeInit, Config.resetLineInit⟩ := rfl

end Sys2Proof.Machine
end

