-- ==== Sys2Proof/Laws/Ops.lean ====
section
/-! SUPPORT. What each shared operation of Machine/Ops.lean does, said once. -/

namespace Sys2Proof.Machine

open Host (Cell)

/-! ### Addresses (R53, R54) -/

/-- The framebuffer's memory is in canonical form. -/
abbrev FbWf (fb : List Cell) : Prop := Memory.wf Config.fbSize fb

theorem inBounds_iff (x y : Int) : inBounds x y = true ↔ 0 ≤ x ∧ x < 128 ∧ 0 ≤ y ∧ y < 128 := by
  simp only [inBounds, Bool.and_eq_true, decide_eq_true_eq, and_assoc]
  exact Iff.rfl

theorem fbAddr_lt {x y : Nat} (hx : x < 128) (hy : y < 128) : fbAddr x y < Config.fbSize := by
  simp only [fbAddr, Config.width, Config.fbSize]; omega

theorem fbAddr_inj {x y x' y' : Nat} (hx : x < 128) (hx' : x' < 128) :
    fbAddr x y = fbAddr x' y' ↔ x = x' ∧ y / 8 = y' / 8 := by
  simp only [fbAddr, Config.width]; omega

/-- Every byte of the framebuffer is the byte of some pixel. -/
theorem exists_fbAddr {a : Nat} (ha : a < Config.fbSize) (b : Nat) (hb : b < 8) :
    ∃ x y, x < 128 ∧ y < 128 ∧ fbAddr x y = a ∧ y % 8 = b := by
  refine ⟨a % 128, a / 128 * 8 + b, ?_, ?_, ?_, ?_⟩ <;> simp only [fbAddr, Config.width, Config.fbSize] at * <;> omega

/-! ### The pixel primitive (R161) -/

theorem setPixel_outside {fb : List Cell} {x y : Int} {on : Bool} (h : inBounds x y = false) :
    setPixel fb x y on = fb := by
  simp [setPixel, h]

theorem setPixel_wf {fb : List Cell} (h : FbWf fb) (x y : Int) (on : Bool) : FbWf (setPixel fb x y on) := by
  unfold setPixel
  split
  · next hb =>
    rw [inBounds_iff] at hb
    exact Memory.write_wf h (fbAddr_lt (by omega) (by omega)) _
  · exact h

theorem getLsbD_setMask (old : Byte) (y i : Nat) (on : Bool) (hi : i < 8) :
    (if on then old ||| pixelMask y else old &&& ~~~pixelMask y).getLsbD i =
      if i = y % 8 then on else old.getLsbD i := by
  have hy : y % 8 < 8 := Nat.mod_lt _ (by decide)
  have hm : (pixelMask y).getLsbD i = decide (i = y % 8) := by
    simp only [pixelMask]
    generalize y % 8 = k at *
    interval_cases k <;> interval_cases i <;> rfl
  cases on <;> simp only [if_true, if_false, Bool.false_eq_true, BitVec.getLsbD_or, BitVec.getLsbD_and,
    BitVec.getLsbD_not, hm, hi, decide_true, Bool.true_and] <;> by_cases h : i = y % 8 <;> simp [h]

/-- `SetPixel` sets one pixel and leaves every other as it was (R161). -/
theorem pixelAt_setPixel {fb : List Cell} (h : FbWf fb) (x y : Int) (on : Bool) {px py : Nat}
    (hx : px < 128) (hy : py < 128) :
    pixelAt (setPixel fb x y on) px py = if x = px ∧ y = py then on else pixelAt fb px py := by
  unfold setPixel
  split
  · next hb =>
    rw [inBounds_iff] at hb
    simp only [pixelAt, Memory.read_write h]
    by_cases ha : fbAddr px py = fbAddr x.toNat y.toNat
    · rw [if_pos ha, getLsbD_setMask _ _ _ _ (Nat.mod_lt _ (by decide)), ← ha]
      have := (fbAddr_inj hx (by omega)).mp ha
      by_cases hm : py % 8 = y.toNat % 8
      · rw [if_pos hm, if_pos ⟨by omega, by omega⟩]
      · rw [if_neg hm, if_neg (fun hc => hm (by omega))]
    · rw [if_neg ha, if_neg]
      rintro ⟨rfl, rfl⟩
      exact ha (by simp)
  · next hb =>
    rw [if_neg]
    rintro ⟨rfl, rfl⟩
    exact hb ((inBounds_iff _ _).mpr ⟨by omega, by omega, by omega, by omega⟩)

/-- `SetPixel` writes at most the one byte it addresses (R161). -/
theorem read_setPixel {fb : List Cell} (h : FbWf fb) (x y : Int) (on : Bool) (a : Nat) :
    Memory.read (setPixel fb x y on) a =
      if inBounds x y = true ∧ a = fbAddr x.toNat y.toNat then
        (if on then Memory.read fb a ||| pixelMask y.toNat else Memory.read fb a &&& ~~~pixelMask y.toNat)
      else Memory.read fb a := by
  unfold setPixel
  split
  · next hb =>
    simp only [Memory.read_write h, hb, true_and]
    split
    · next ha => subst ha; rfl
    · rfl
  · next hb => simp [hb]

/-- Framebuffers with the same pixels are the same list. -/
theorem fb_ext {m n : List Cell} (hm : FbWf m) (hn : FbWf n)
    (h : ∀ x y, x < 128 → y < 128 → pixelAt m x y = pixelAt n x y) : m = n := by
  refine Memory.ext hm hn fun a => ?_
  by_cases ha : a < Config.fbSize
  · refine BitVec.eq_of_getLsbD_eq fun i hi => ?_
    obtain ⟨x, y, hx, hy, rfl, rfl⟩ := exists_fbAddr ha i hi
    exact h x y hx hy
  · rw [Memory.read_outside hm (by omega), Memory.read_outside hn (by omega)]

/-! ### Plotting -/

theorem plotAll_nil (fb : List Cell) : plotAll fb [] = fb := rfl

theorem plotAll_cons (fb : List Cell) (p : Plot) (ps : List Plot) :
    plotAll fb (p :: ps) = plotAll (setPixel fb p.x p.y p.on) ps := rfl

theorem plotAll_append (fb : List Cell) (ps qs : List Plot) : plotAll fb (ps ++ qs) = plotAll (plotAll fb ps) qs :=
  List.foldl_append ..

theorem plotAll_wf {fb : List Cell} (h : FbWf fb) (ps : List Plot) : FbWf (plotAll fb ps) := by
  induction ps generalizing fb with
  | nil => exact h
  | cons p ps ih => exact ih (setPixel_wf h _ _ _)

/-- A pixel that no plot names is left as it was. -/
theorem pixelAt_plotAll_of_not_mem {fb : List Cell} (h : FbWf fb) (ps : List Plot) {px py : Nat}
    (hx : px < 128) (hy : py < 128) (hn : ∀ p ∈ ps, ¬(p.x = px ∧ p.y = py)) :
    pixelAt (plotAll fb ps) px py = pixelAt fb px py := by
  induction ps generalizing fb with
  | nil => rfl
  | cons p ps ih =>
    rw [plotAll_cons, ih (setPixel_wf h _ _ _) fun q hq => hn q (by simp [hq]), pixelAt_setPixel h _ _ _ hx hy,
      if_neg (hn p (by simp))]

/-- Where every plot that names a pixel has the same colour, the pixel takes it. -/
theorem pixelAt_plotAll {fb : List Cell} (h : FbWf fb) (ps : List Plot) {px py : Nat} (hx : px < 128) (hy : py < 128)
    {on : Bool} (hc : ∀ p ∈ ps, p.x = px ∧ p.y = py → p.on = on) :
    pixelAt (plotAll fb ps) px py = if ∃ p ∈ ps, p.x = px ∧ p.y = py then on else pixelAt fb px py := by
  induction ps generalizing fb with
  | nil => simp [plotAll_nil]
  | cons p ps ih =>
    rw [plotAll_cons, ih (setPixel_wf h _ _ _) fun q hq => hc q (by simp [hq]), pixelAt_setPixel h _ _ _ hx hy]
    by_cases hp : p.x = px ∧ p.y = py
    · rw [if_pos hp, hc p (by simp) hp, if_pos (⟨p, by simp, hp⟩ : ∃ q ∈ p :: ps, q.x = px ∧ q.y = py)]
      split <;> rfl
    · rw [if_neg hp]
      congr 1
      simp [hp]

/-- Points plotted in one colour: exactly those in range change, and take it. -/
theorem pixelAt_colourPoints {fb : List Cell} (h : FbWf fb) (ps : List (Int × Int)) (on : Bool) {px py : Nat}
    (hx : px < 128) (hy : py < 128) :
    pixelAt (plotAll fb (colourPoints ps on)) px py =
      if ((px : Int), (py : Int)) ∈ ps then on else pixelAt fb px py := by
  rw [pixelAt_plotAll h _ hx hy (on := on)]
  · congr 1
    simp only [colourPoints, List.mem_map, eq_iff_iff]
    constructor
    · rintro ⟨p, ⟨q, hq, rfl⟩, h1, h2⟩; rw [← h1, ← h2]; exact hq
    · intro hq; exact ⟨_, ⟨_, hq, rfl⟩, rfl, rfl⟩
  · simp only [colourPoints, List.mem_map]
    rintro p ⟨q, -, rfl⟩ -; rfl

/-! ### Clearing (R160) -/

theorem foldl_write_zero {m : List Cell} (h : FbWf m) (l : List Nat) (hl : ∀ a ∈ l, a < Config.fbSize) :
    FbWf (l.foldl (fun m a => Memory.write m a 0x00) m) ∧
      ∀ b, Memory.read (l.foldl (fun m a => Memory.write m a 0x00) m) b =
        if b ∈ l then 0x00 else Memory.read m b := by
  induction l generalizing m with
  | nil => exact ⟨h, fun b => by simp⟩
  | cons a l ih =>
    have ha := hl a (by simp)
    obtain ⟨h1, h2⟩ := ih (Memory.write_wf h ha 0x00) fun b hb => hl b (by simp [hb])
    refine ⟨h1, fun b => ?_⟩
    rw [List.foldl_cons, h2 b, Memory.read_write h]
    by_cases hb : b = a <;> simp [hb]

theorem clearBytes_wf : FbWf clearBytes := Memory.wf_nil _

/-- After `clear` every byte reads zero. -/
@[simp] theorem read_clearBytes (a : Nat) : Memory.read clearBytes a = 0x00 := rfl

/-- The loop of R160, run on any framebuffer in canonical form, leaves what `clear` leaves. -/
theorem clearLoop_eq {m : List Cell} (h : FbWf m) :
    (List.range Config.fbSize).foldl (fun m a => Memory.write m a 0x00) m = clearBytes :=
  have hl := foldl_write_zero h (List.range Config.fbSize) fun _ ha => List.mem_range.mp ha
  Memory.ext hl.1 clearBytes_wf fun b => by
    rw [hl.2 b, read_clearBytes]
    split
    · rfl
    · next hb => exact Memory.read_outside h (by simpa using hb)

/-! ### Events (R140, R141, R148) -/

/-- Sending a command that has bytes: the selection, then one write of them (R140). -/
theorem State.emitCommand_eq (s : State) {c : Command} (h : encodeCommand c ≠ []) :
    s.emitCommand c = s.afterSending (encodeCommand c) := by
  unfold State.emitCommand
  split
  · next he => exact absurd he h
  · next b bs he => simp [State.emit, State.afterSending, Pins.drive, he]

theorem encodeCommand_eq_nil {c : Command} : encodeCommand c = [] ↔ c = .readId := by
  cases c <;> simp [encodeCommand]

/-- `ReadId` sends nothing (R129, R140). -/
theorem State.emitCommand_readId (s : State) : s.emitCommand .readId = s := rfl

/-- The reset sequence: six events; the line ends released (R141). -/
theorem State.resetSequence_eq (s : State) :
    s.resetSequence =
      { s with trace := s.trace ++ resetPulse, pins := { s.pins with resetLine := .released } } := by
  simp [State.resetSequence, State.emit, Pins.drive, resetPulse, resetDelayMs]

/-- A command sent in a state that accepts commands (R148). -/
theorem State.sendCommand_eq (s : State) {c : Command} (hs : acceptsCommands s.ds = true) (hc : c ≠ .readId) :
    s.sendCommand c = { s.afterSending (encodeCommand c) with ds := dsAfterCommand c s.ds } := by
  have he := s.emitCommand_eq (mt encodeCommand_eq_nil.mp hc)
  cases c <;> first | exact absurd rfl hc | simp [State.sendCommand, hs, he, State.setDs]

/-- `ReadId` is a silent no-op in every state (R129). -/
theorem State.sendCommand_readId (s : State) : s.sendCommand .readId = s := by
  unfold State.sendCommand; split <;> rfl

/-- Outside the states that accept commands nothing is sent (R148). -/
theorem State.sendCommand_ignored (s : State) (c : Command) (hs : acceptsCommands s.ds = false) :
    s.sendCommand c = s := by
  simp [State.sendCommand, hs]

/-- What sending a command can change: `DS`, the trace and the pins. -/
theorem State.sendCommand_frame (s : State) (c : Command) :
    s.sendCommand c =
      { s with ds := (s.sendCommand c).ds, trace := (s.sendCommand c).trace, pins := (s.sendCommand c).pins } := by
  by_cases hs : acceptsCommands s.ds = true
  · by_cases hc : c = .readId
    · subst hc; rw [State.sendCommand_readId]
    · rw [State.sendCommand_eq s hs hc]; rfl
  · rw [State.sendCommand_ignored s c (by simpa using hs)]

/-- The guard of the framebuffer operations, past it and not (R164). -/
theorem State.whenOperational_true {s : State} (h : operational s.ds = true) (f : State → State) :
    s.whenOperational f = f s := by
  simp [State.whenOperational, h]

theorem State.whenOperational_false {s : State} (h : operational s.ds = false) (f : State → State) :
    s.whenOperational f = s := by
  simp [State.whenOperational, h]

/-- Commands sent one after the other, each with bytes: their events in order. -/
theorem State.emitCommands_eq (cs : List Command) (h : ∀ c ∈ cs, encodeCommand c ≠ []) (s : State) :
    cs.foldl State.emitCommand s =
      { s with trace := s.trace ++ cs.flatMap fun c => [.selCmd, .write (encodeCommand c)],
               pins := if cs = [] then s.pins else { s.pins with mode := .command } } := by
  induction cs generalizing s with
  | nil => simp
  | cons c cs ih =>
    rw [List.foldl_cons, State.emitCommand_eq s (h c (by simp)), ih fun d hd => h d (by simp [hd])]
    simp [State.afterSending]

end Sys2Proof.Machine
end

