-- ==== Sys2Proof/Laws/Draw.lean ====
section
/-! SUPPORT. What the bitmap and glyph engines plot, said once (R180, R184). -/

namespace Sys2Proof.Machine

open Host (Cell)

@[simp] theorem sext16_eq (v : Coord) : sext16 v = v.toInt := rfl

/-- The valid codes (R183). -/
theorem validChar_iff (c : Byte) : validChar c = true ↔ 32 ≤ c.toNat ∧ c.toNat ≤ 127 := by
  rw [validChar, Bool.and_eq_true, decide_eq_true_eq, decide_eq_true_eq]; rfl

/-- The plots of a bitmap are its set source bits, in its colour (R180). -/
theorem mem_bitmapPlots {bitmap : List Byte} {draw : Nat} {x y : Int} {w h : Nat} {on : Bool} {p : Plot} :
    p ∈ bitmapPlots bitmap draw x y w h on ↔
      ∃ i j : Nat, i < w ∧ j < h ∧ bmpBit bitmap draw w i j = true ∧ p = ⟨x + i, y + j, on⟩ := by
  simp only [bitmapPlots, bitmapRow, List.mem_flatMap, List.mem_filterMap, List.mem_range]
  constructor
  · rintro ⟨j, hj, i, hi, hp⟩
    split at hp
    · next hb => exact ⟨i, j, hi, hj, hb, (Option.some.inj hp).symm⟩
    · cases hp
  · rintro ⟨i, j, hi, hj, hb, rfl⟩
    exact ⟨j, hj, i, hi, if_pos hb⟩

/-- A bitmap with a side that is not positive draws nothing and leaves its registers (R180). -/
theorem State.drawBitmap_empty (s : State) {x y w h : Int} {bitmap : List Byte} {on : Bool} (he : w ≤ 0 ∨ h ≤ 0) :
    s.drawBitmap x y w h bitmap on = s := if_pos he

theorem State.drawBitmap_eq (s : State) {x y w h : Int} {bitmap : List Byte} {on : Bool} (he : ¬(w ≤ 0 ∨ h ≤ 0)) :
    s.drawBitmap x y w h bitmap on = (s.plot (bitmapPlots bitmap s.draws x y w.toNat h.toNat on)).leaveBlit := if_neg he

/-- A byte of operand memory that the host did hand over. -/
theorem operandRead_eq {bytes : List Byte} (draw nth : Nat) {k : Nat} (h : k < bytes.length) :
    operandRead bytes draw nth k = bytes.getD k 0 := by
  simp [operandRead, List.getD, h]

/-- The plots of a valid character are the forty cells of its box, each with the glyph's bit (R184, log 17). -/
theorem mem_glyphPlots {font : List Cell} {x y : Int} {c : Byte} (hc : validChar c = true) {p : Plot} :
    p ∈ glyphPlots font x y c ↔
      ∃ col row : Nat, col < 5 ∧ row < 8 ∧
        p = ⟨x + col, y + row, (Memory.read font ((c.toNat - 32) * 5 + col)).getLsbD row⟩ := by
  simp only [glyphPlots, hc, if_true, List.mem_flatMap, glyphColumn, List.mem_filterMap, List.mem_range, glyphWidth,
    glyphHeight, glyphOpaque, Option.some.injEq]
  constructor
  · rintro ⟨col, hcol, row, hrow, hp⟩; exact ⟨col, row, hcol, hrow, hp.symm⟩
  · rintro ⟨col, row, hcol, hrow, hp⟩; exact ⟨col, hcol, row, hrow, hp.symm⟩

/-- An invalid character plots nothing (R184). -/
theorem glyphPlots_invalid {font : List Cell} {x y : Int} {c : Byte} (hc : ¬validChar c = true) :
    glyphPlots font x y c = [] := if_neg hc

end Sys2Proof.Machine
end

