-- ==== Sys2Proof/Laws/Exec.lean ====
section
/-! SUPPORT. What the longer operations do in closed form, and what one instruction and one step can do at all. -/

namespace Sys2Proof.Machine

open Host (Cell)

/-! ### Pins and traces -/

theorem pinsAfter_nil (p : Pins) : pinsAfter p [] = p := rfl

theorem pinsAfter_append (p : Pins) (es fs : List Event) : pinsAfter p (es ++ fs) = pinsAfter (pinsAfter p es) fs :=
  List.foldl_append ..

/-- Whether the last event of a trace selected a mode (what `writesSelected` hands on). -/
def selectsLast (sel : Bool) : List Event → Bool
  | [] => sel
  | .selCmd :: es => selectsLast true es
  | .selData :: es => selectsLast true es
  | .write _ :: es => selectsLast false es
  | .rstAssert :: es => selectsLast false es
  | .rstRelease :: es => selectsLast false es
  | .delay _ :: es => selectsLast false es

theorem writesSelected_append (sel : Bool) (es fs : List Event) :
    writesSelected sel (es ++ fs) = (writesSelected sel es && writesSelected (selectsLast sel es) fs) := by
  induction es generalizing sel with
  | nil => simp [writesSelected, selectsLast]
  | cons e es ih => cases e <;> simp [writesSelected, selectsLast, ih, Bool.and_assoc]

/-- Events that select before they write, whatever came before. -/
abbrev SelfSelected (es : List Event) : Prop := ∀ sel, writesSelected sel es = true

theorem SelfSelected.append {es fs : List Event} (h : SelfSelected es) (k : SelfSelected fs) :
    SelfSelected (es ++ fs) := fun sel => by rw [writesSelected_append, h, k]; rfl

theorem selfSelected_flatMap {α : Type} (l : List α) (f : α → List Event) (h : ∀ a ∈ l, SelfSelected (f a)) :
    SelfSelected (l.flatMap f) := by
  induction l with
  | nil => exact fun _ => rfl
  | cons a l ih => exact (h a (by simp)).append (ih fun b hb => h b (by simp [hb]))

theorem selfSelected_sending {bytes : List Byte} (h : bytes ≠ []) : SelfSelected [.selCmd, .write bytes] := by
  intro sel; cases bytes <;> simp_all [writesSelected]

/-! ### Device control in closed form -/

/-- The thirteen commands of `initialize` (R143). -/
def initCommands (s : State) : List Command := configureCommands s ++ [.displayOnOff 1]

theorem configureCommands_written (s : State) : ∀ c ∈ configureCommands s, encodeCommand c ≠ [] := by
  simp [configureCommands, encodeCommand]

/-- `initialize` past its guard (R143): the reset pulse, thirteen commands, `Displaying`. -/
theorem State.runInitialize_eq (s : State) :
    s.runInitialize =
      { s with ds := .displaying,
               trace := s.trace ++ (resetPulse ++ (initCommands s).flatMap fun c => [.selCmd, .write (encodeCommand c)]),
               pins := { mode := .command, resetLine := .released } } := by
  have h1 : encodeCommand (.displayOnOff 1) ≠ [] := by simp [encodeCommand]
  simp only [State.runInitialize, State.emitCommands]
  rw [State.emitCommand_eq _ h1, State.emitCommands_eq _ (configureCommands_written _)]
  simp [State.resetSequence_eq, State.setDs, State.afterSending, initCommands, configureCommands]

/-! ### Flush in closed form (R195) -/

theorem pageByte (p : Nat) (h : p < 16) :
    opcPage ||| (BitVec.ofNat 4 p).setWidth 8 = 0xB0#8 ||| BitVec.ofNat 8 p := by
  interval_cases p <;> rfl

theorem State.flushPage_eq (s : State) {p : Nat} (h : p < 16) :
    s.flushPage p =
      { s with trace := s.trace ++ pageEvents s.fb p, pins := { s.pins with mode := .data } } := by
  have h1 : ∀ q : BitVec 4, encodeCommand (.setPageAddress q) ≠ [] := by simp [encodeCommand]
  have h2 : encodeCommand (.setColumnLow 0) ≠ [] := by simp [encodeCommand]
  have h3 : encodeCommand (.setColumnHigh 0) ≠ [] := by simp [encodeCommand]
  simp only [State.flushPage]
  rw [State.emitCommand_eq _ (h1 _), State.emitCommand_eq _ h2, State.emitCommand_eq _ h3]
  have hb := pageByte p h
  simp [State.emit, Pins.drive, State.afterSending, pageEvents, pageBytes, Memory.readBytes, encodeCommand,
    Config.width, Nat.mul_comm, opcColLo, opcColHi, hb]

theorem State.flushPages_eq (l : List Nat) (hl : ∀ p ∈ l, p < 16) (s : State) :
    l.foldl State.flushPage s =
      { s with trace := s.trace ++ l.flatMap (pageEvents s.fb),
               pins := if l = [] then s.pins else { s.pins with mode := .data } } := by
  induction l generalizing s with
  | nil => simp
  | cons p l ih =>
    rw [List.foldl_cons, State.flushPage_eq s (hl p (by simp)), ih fun q hq => hl q (by simp [hq])]
    simp

/-- `flush` past its guard: the events of the sixteen pages. -/
theorem execFlush_eq {s : State} (h : operational s.ds = true) :
    execFlush s = .next
      { s with trace := s.trace ++ (List.range 16).flatMap (pageEvents s.fb), pins := { s.pins with mode := .data },
               work := { s.work with pg := freePg s.draws }, draws := s.draws + 1 } := by
  rw [execFlush, State.whenOperational_true h, State.flushPages_eq _ (by simp [Config.pages])]
  simp [State.leaveFlush, Config.pages]

theorem selfSelected_pageEvents (fb : List Cell) (p : Nat) : SelfSelected (pageEvents fb p) := by
  intro sel; simp [pageEvents, writesSelected]

/-! ### What an instruction can do -/

/-- `t` is `s` after a framebuffer operation that emits nothing: `FB`, working registers and the draw counter. -/
def Drawn (s t : State) : Prop :=
  operational s.ds = true ∧ (FbWf s.fb → FbWf t.fb) ∧ t = { s with fb := t.fb, work := t.work, draws := t.draws }

/-- `t` is `s` after events: `DS`, the trace with what drives the pins, the page counter and the draw counter. -/
def Emitted (s t : State) : Prop :=
  s.ds ≠ .deinitialized ∧ (stable s.ds = true → stable t.ds = true) ∧
    ∃ es, SelfSelected es ∧
      t = { s with ds := t.ds, trace := s.trace ++ es, pins := pinsAfter s.pins es, work := t.work, draws := t.draws }

theorem drawn_next {s t : State} {f : State → State} (hf : operational s.ds = true → Drawn s (f s))
    (h : Host.Outcome.next (s.whenOperational f) = (.next t : Result)) : t = s ∨ Drawn s t := by
  cases h
  cases ho : operational s.ds
  · left; exact State.whenOperational_false ho f
  · right; rw [State.whenOperational_true ho]; exact hf ho

theorem emitted_sendCommand (s : State) (c : Command) : s.sendCommand c = s ∨ Emitted s (s.sendCommand c) := by
  by_cases hs : acceptsCommands s.ds = true
  · by_cases hc : c = .readId
    · subst hc; left; exact State.sendCommand_readId s
    · right
      rw [State.sendCommand_eq s hs hc]
      refine ⟨?_, ?_, _, selfSelected_sending (mt encodeCommand_eq_nil.mp hc), ?_⟩
      · intro hd; rw [hd] at hs; cases hs
      · intro hd
        show stable (dsAfterCommand c s.ds) = true
        unfold dsAfterCommand
        split
        · split <;> rfl
        · exact hd
      · simp [State.afterSending, pinsAfter, Pins.drive]
  · left; exact State.sendCommand_ignored s c (by simpa using hs)

theorem emitted_runInitialize {s : State} (h : s.ds ≠ .deinitialized) : Emitted s s.runInitialize := by
  rw [State.runInitialize_eq]
  refine ⟨h, fun _ => rfl, _,
    SelfSelected.append (es := resetPulse) (fun _ => rfl) (selfSelected_flatMap (initCommands s)
      (fun c => [.selCmd, .write (encodeCommand c)]) fun c hc => ?_), ?_⟩
  · refine selfSelected_sending ?_
    rcases List.mem_append.mp hc with hc | hc
    · exact configureCommands_written s c hc
    · simp at hc; subst hc; simp [encodeCommand]
  · simp [initCommands, configureCommands, pinsAfter, resetPulse, Pins.drive]

theorem emitted_deinitialize {s : State} (h : s.ds ≠ .deinitialized) :
    Emitted s ((s.resetSequence.emitCommand (.displayOnOff 0)).setDs .deinitialized) := by
  have h1 : encodeCommand (.displayOnOff 0) ≠ [] := by simp [encodeCommand]
  rw [State.emitCommand_eq _ h1, State.resetSequence_eq]
  refine ⟨h, fun _ => rfl, _, SelfSelected.append (es := resetPulse) (fun _ => rfl) (selfSelected_sending h1), ?_⟩
  simp [State.afterSending, State.setDs, pinsAfter, resetPulse, Pins.drive]

theorem drawn_refl_fb {s : State} (ho : operational s.ds = true) (fb : List Cell) (h : FbWf s.fb → FbWf fb) :
    Drawn s { s with fb := fb } := ⟨ho, h, rfl⟩

/-- The three shapes of an instruction's effect: none, drawing, events. -/
theorem exec_cases {i : Instr} {s t : State} (h : exec i s = .next t) :
    t = s ∨ (i.isFramebufferOp = true ∧ i ≠ .flush ∧ Drawn s t) ∨ Emitted s t := by
  have hcmd : ∀ c, (.next (s.sendCommand c) : Result) = .next t → t = s ∨ Emitted s t := by
    intro c hc; cases hc; exact emitted_sendCommand s c
  cases i
  case opInitialize =>
    cases h
    by_cases hd : s.ds = .deinitialized
    · left; simp [hd]
    · right; right; rw [if_neg hd]; exact emitted_runInitialize hd
  case deinitialize =>
    cases h
    by_cases hd : s.ds = .deinitialized
    · left; simp [hd]
    · right; right; rw [if_neg hd]; exact emitted_deinitialize hd
  case flush =>
    cases ho : operational s.ds
    · left; cases h; exact State.whenOperational_false ho _
    · right; right
      have h' : execFlush s = .next t := h
      rw [execFlush_eq ho] at h'
      cases h'
      refine ⟨?_, fun hd => hd, _,
        selfSelected_flatMap (List.range 16) (pageEvents s.fb) fun p _ => selfSelected_pageEvents s.fb p, ?_⟩
      · intro hd; rw [hd] at ho; cases ho
      · simp [List.range, List.range.loop, pinsAfter, pageEvents, Pins.drive]
  case clear =>
    refine (drawn_next (fun ho => ?_) h).imp_right fun hd => .inl ⟨rfl, by simp, hd⟩
    exact drawn_refl_fb ho _ fun _ => clearBytes_wf
  case setPixel x y on =>
    refine (drawn_next (fun ho => ?_) h).imp_right fun hd => .inl ⟨rfl, by simp, hd⟩
    exact drawn_refl_fb ho _ fun hw => setPixel_wf hw _ _ _
  case drawLine x0 y0 x1 y1 on =>
    refine (drawn_next (fun ho => ?_) h).imp_right fun hd => .inl ⟨rfl, by simp, hd⟩
    exact ⟨ho, fun hw => plotAll_wf hw _, rfl⟩
  case drawCircle x0 y0 r on =>
    refine (drawn_next (fun ho => ?_) h).imp_right fun hd => .inl ⟨rfl, by simp, hd⟩
    exact ⟨ho, fun hw => plotAll_wf hw _, rfl⟩
  case drawBitmap x y w hh bitmap on =>
    refine (drawn_next (fun ho => ?_) h).imp_right fun hd => .inl ⟨rfl, by simp, hd⟩
    unfold State.drawBitmap
    split
    · exact drawn_refl_fb ho s.fb id
    · exact ⟨ho, fun hw => plotAll_wf hw _, rfl⟩
  case drawChar x y c =>
    refine (drawn_next (fun ho => ?_) h).imp_right fun hd => .inl ⟨rfl, by simp, hd⟩
    split
    · exact ⟨ho, fun hw => plotAll_wf hw _, rfl⟩
    · exact drawn_refl_fb ho s.fb id
  case drawString x y n codes =>
    refine (drawn_next (fun ho => ?_) h).imp_right fun hd => .inl ⟨rfl, by simp, hd⟩
    exact ⟨ho, fun hw => plotAll_wf hw _, rfl⟩
  all_goals exact (hcmd _ h).imp_right .inr

/-- The shapes of a step: the core waits, or the oldest request decodes and its instruction runs. -/
theorem step_cases {s t : State} (h : step s = .next t) :
    (s.port = [] ∧ t = s) ∨
      ∃ r rest i, s.port = r :: rest ∧ decode r = .ok i ∧ exec i { s with port := rest } = .next t := by
  unfold step fetch at h
  split at h
  · next hf => cases h; left; split at hf <;> simp_all
  · next i u hf =>
    right
    split at hf
    · simp at hf
    · next r rest hp =>
      simp only [Option.some.injEq, Prod.mk.injEq] at hf
      exact ⟨r, rest, i, hp, hf.1, by rw [hf.2]; exact h⟩
  · cases h

end Sys2Proof.Machine
end

