-- ==== Sys2Proof/Laws/PerInstr.lean ====
section
/-! SUPPORT. The family Opcode: the encoding of every instruction carries the opcode that spec/opcode_table.json gives its
row, under the row's mask, in the kind of request of its table (R81, R83, R90). -/

namespace Sys2Proof.Laws.Opcode

/-- What spec/opcode_table.json says of byte 0 of a row: which table, how many bytes at the least, mask and match. -/
structure Row where
  kind : PortKind
  bytes : Nat
  mask : Byte
  value : Byte

/-- The row of an instruction. -/
def row : Instr → Row
  | .setColumnLow _ => ⟨.command, 1, 0xF0, 0x00⟩
  | .setColumnHigh _ => ⟨.command, 1, 0xF8, 0x10⟩
  | .setPageAddress _ => ⟨.command, 1, 0xF0, 0xB0⟩
  | .setContrast _ => ⟨.command, 2, 0xFF, 0x81⟩
  | .setMultiplexRatio _ => ⟨.command, 2, 0xFF, 0xA8⟩
  | .setDisplayOffset _ => ⟨.command, 2, 0xFF, 0xD3⟩
  | .setClockDivide _ => ⟨.command, 2, 0xFF, 0xD5⟩
  | .setChargePeriod _ => ⟨.command, 2, 0xFF, 0xD9⟩
  | .setVcomLevel _ => ⟨.command, 2, 0xFF, 0xDB⟩
  | .setDisplayStartLine _ => ⟨.command, 2, 0xFF, 0xDC⟩
  | .setSegmentRemap _ => ⟨.command, 1, 0xFE, 0xA0⟩
  | .setScanDirection _ => ⟨.command, 1, 0xF7, 0xC0⟩
  | .entireDisplay _ => ⟨.command, 1, 0xFE, 0xA4⟩
  | .normalReverse _ => ⟨.command, 1, 0xFE, 0xA6⟩
  | .displayOnOff _ => ⟨.command, 1, 0xFE, 0xAE⟩
  | .readModifyWrite => ⟨.command, 1, 0xFF, 0xE0⟩
  | .endCmd => ⟨.command, 1, 0xFF, 0xEE⟩
  | .nop => ⟨.command, 1, 0xFF, 0xE3⟩
  | .readId => ⟨.command, 0, 0, 0⟩
  | .setDcDc _ => ⟨.command, 2, 0xFF, 0xAD⟩
  | .opInitialize => ⟨.operation, 1, 0x0F, 0x00⟩
  | .deinitialize => ⟨.operation, 1, 0x0F, 0x01⟩
  | .clear => ⟨.operation, 1, 0x0F, 0x02⟩
  | .flush => ⟨.operation, 1, 0x0F, 0x03⟩
  | .setPixel _ _ _ => ⟨.operation, 1, 0x0F, 0x04⟩
  | .drawLine _ _ _ _ _ => ⟨.operation, 1, 0x0F, 0x05⟩
  | .drawCircle _ _ _ _ => ⟨.operation, 1, 0x0F, 0x06⟩
  | .drawBitmap _ _ _ _ _ _ => ⟨.operation, 1, 0x0F, 0x07⟩
  | .drawChar _ _ _ => ⟨.operation, 1, 0x0F, 0x08⟩
  | .drawString _ _ _ _ => ⟨.operation, 1, 0x0F, 0x09⟩
  | .sendCommand _ => ⟨.operation, 1, 0x0F, 0x0A⟩

/-- The instruction is laid out as its row says: a command in exactly the row's bytes, an operation in at least its
`OPSEL` byte, byte 0 matching the row. -/
def Statement (i : Instr) : Prop :=
  (encode i).kind = (row i).kind ∧
    ((row i).kind = .command → (encode i).bytes.length = (row i).bytes) ∧ (row i).bytes ≤ (encode i).bytes.length ∧
    ((row i).bytes ≠ 0 → (encode i).bytes.headD 0 &&& (row i).mask = (row i).value)

theorem setColumnLow (a : BitVec 4) : Statement (.setColumnLow a) :=
  ⟨rfl, fun _ => rfl, by simp [row, encode, encodeCommand], fun _ => by revert a; decide⟩

theorem setColumnHigh (a : BitVec 3) : Statement (.setColumnHigh a) :=
  ⟨rfl, fun _ => rfl, by simp [row, encode, encodeCommand], fun _ => by revert a; decide⟩

theorem setPageAddress (p : BitVec 4) : Statement (.setPageAddress p) :=
  ⟨rfl, fun _ => rfl, by simp [row, encode, encodeCommand], fun _ => by revert p; decide⟩

theorem setContrast (v : BitVec 8) : Statement (.setContrast v) :=
  ⟨rfl, fun _ => rfl, by simp [row, encode, encodeCommand], fun _ => show opcContrast &&& 0xFF = 0x81 by decide⟩

theorem setMultiplexRatio (m : BitVec 7) : Statement (.setMultiplexRatio m) :=
  ⟨rfl, fun _ => rfl, by simp [row, encode, encodeCommand], fun _ => show opcMux &&& 0xFF = 0xA8 by decide⟩

theorem setDisplayOffset (o : BitVec 7) : Statement (.setDisplayOffset o) :=
  ⟨rfl, fun _ => rfl, by simp [row, encode, encodeCommand], fun _ => show opcOffset &&& 0xFF = 0xD3 by decide⟩

theorem setClockDivide (d : BitVec 8) : Statement (.setClockDivide d) :=
  ⟨rfl, fun _ => rfl, by simp [row, encode, encodeCommand], fun _ => show opcClock &&& 0xFF = 0xD5 by decide⟩

theorem setChargePeriod (c : BitVec 8) : Statement (.setChargePeriod c) :=
  ⟨rfl, fun _ => rfl, by simp [row, encode, encodeCommand], fun _ => show opcCharge &&& 0xFF = 0xD9 by decide⟩

theorem setVcomLevel (v : BitVec 8) : Statement (.setVcomLevel v) :=
  ⟨rfl, fun _ => rfl, by simp [row, encode, encodeCommand], fun _ => show opcVcom &&& 0xFF = 0xDB by decide⟩

theorem setDisplayStartLine (l : BitVec 7) : Statement (.setDisplayStartLine l) :=
  ⟨rfl, fun _ => rfl, by simp [row, encode, encodeCommand], fun _ => show opcStartLine &&& 0xFF = 0xDC by decide⟩

theorem setSegmentRemap (r : BitVec 1) : Statement (.setSegmentRemap r) :=
  ⟨rfl, fun _ => rfl, by simp [row, encode, encodeCommand], fun _ => by revert r; decide⟩

theorem setScanDirection (d : BitVec 1) : Statement (.setScanDirection d) :=
  ⟨rfl, fun _ => rfl, by simp [row, encode, encodeCommand], fun _ => by revert d; decide⟩

theorem entireDisplay (e : BitVec 1) : Statement (.entireDisplay e) :=
  ⟨rfl, fun _ => rfl, by simp [row, encode, encodeCommand], fun _ => by revert e; decide⟩

theorem normalReverse (r : BitVec 1) : Statement (.normalReverse r) :=
  ⟨rfl, fun _ => rfl, by simp [row, encode, encodeCommand], fun _ => by revert r; decide⟩

theorem displayOnOff (o : BitVec 1) : Statement (.displayOnOff o) :=
  ⟨rfl, fun _ => rfl, by simp [row, encode, encodeCommand], fun _ => by revert o; decide⟩

theorem readModifyWrite : Statement (.readModifyWrite) :=
  ⟨rfl, fun _ => rfl, by simp [row, encode, encodeCommand], fun _ => show opcRmw &&& 0xFF = 0xE0 by decide⟩

theorem endCmd : Statement (.endCmd) :=
  ⟨rfl, fun _ => rfl, by simp [row, encode, encodeCommand], fun _ => show opcEnd &&& 0xFF = 0xEE by decide⟩

theorem nop : Statement (.nop) :=
  ⟨rfl, fun _ => rfl, by simp [row, encode, encodeCommand], fun _ => show opcNop &&& 0xFF = 0xE3 by decide⟩

theorem readId : Statement (.readId) := ⟨rfl, fun _ => rfl, by decide, fun h => absurd rfl h⟩

theorem setDcDc (s : BitVec 4) : Statement (.setDcDc s) :=
  ⟨rfl, fun _ => rfl, by simp [row, encode, encodeCommand], fun _ => show opcDcdc &&& 0xFF = 0xAD by decide⟩

theorem opInitialize : Statement (.opInitialize) := ⟨rfl, nofun, by simp [row, encode], fun _ => by simp [row, encode]⟩

theorem deinitialize : Statement (.deinitialize) := ⟨rfl, nofun, by simp [row, encode], fun _ => by simp [row, encode]⟩

theorem clear : Statement (.clear) := ⟨rfl, nofun, by simp [row, encode], fun _ => by simp [row, encode]⟩

theorem flush : Statement (.flush) := ⟨rfl, nofun, by simp [row, encode], fun _ => by simp [row, encode]⟩

theorem setPixel (x y : Coord) (on : Bool) : Statement (.setPixel x y on) :=
  ⟨rfl, nofun, by simp [row, encode], fun _ => by simp [row, encode]⟩

theorem drawLine (x0 y0 x1 y1 : Coord) (on : Bool) : Statement (.drawLine x0 y0 x1 y1 on) :=
  ⟨rfl, nofun, by simp [row, encode], fun _ => by simp [row, encode]⟩

theorem drawCircle (x0 y0 r : Coord) (on : Bool) : Statement (.drawCircle x0 y0 r on) :=
  ⟨rfl, nofun, by simp [row, encode], fun _ => by simp [row, encode]⟩

theorem drawBitmap (x y w h : Coord) (bitmap : List Byte) (on : Bool) : Statement (.drawBitmap x y w h bitmap on) :=
  ⟨rfl, nofun, by simp [row, encode], fun _ => by simp [row, encode]⟩

theorem drawChar (x y : Coord) (c : Byte) : Statement (.drawChar x y c) :=
  ⟨rfl, nofun, by simp [row, encode], fun _ => by simp [row, encode]⟩

theorem drawString (x y : Coord) (n : Nat) (codes : List Byte) : Statement (.drawString x y n codes) :=
  ⟨rfl, nofun, by simp [row, encode], fun _ => by simp [row, encode]⟩

theorem sendCommand (cmd : Command) : Statement (.sendCommand cmd) := ⟨rfl, nofun, by simp [row, encode], fun _ => by simp [row, encode]⟩

end Sys2Proof.Laws.Opcode
end

