-- ==== Sys2Proof/Tests/Slice0.lean ====
section
/-! SUPPORT. Tests: each expected result is one the spec works out (95_test_vectors.md, or the example of the rule named). -/

namespace Sys2Proof.Tests

open Sys2Proof Sys2Proof.Machine
open Host (Cell)

/-! ### The states of 95_test_vectors.md -/

/-- `CFG_EX`. -/
def cfgEx : DisplayConfig where
  column := 0
  page := 0
  startLine := 0
  contrast := 0x80
  muxRatio := 0x7F
  offset := 0
  clockDivide := 0x50
  chargePeriod := 0x22
  vcomLevel := 0x35
  remap := 0
  scanDirection := 0

/-- `FONT_T`: 'A' and 'B', every other glyph zero. -/
def fontT : List Cell :=
  [(165, 0x7E), (166, 0x11), (167, 0x11), (168, 0x11), (169, 0x7E),
    (170, 0x7F), (171, 0x49), (172, 0x49), (173, 0x49), (174, 0x36)]

/-- "Cleared start". -/
def cleared : State where
  ds := .displaying
  cfg := cfgEx
  initDcdc := 1
  fb := []
  font := fontT
  work := WorkRegs.free 0
  trace := []
  pins := { mode := .command, resetLine := .released }
  port := []
  draws := 1

def inState (d : DeviceState) : State := { cleared with ds := d }
def withFb (m : List Cell) : State := { cleared with fb := m }

def fbAfter (i : Instr) (s : State) : Option (List Cell) :=
  match exec i s with
  | .next t => some t.fb
  | _ => none

def dsTraceAfter (i : Instr) (s : State) : Option (DeviceState × List Event) :=
  match exec i s with
  | .next t => some (t.ds, t.trace)
  | _ => none

/-! ### WellFormed and the boundary (R206, R87, R91) -/

theorem test_wellFormed_string : WellFormed (.drawString 0 0 2 [72, 105]) = true := by decide
theorem test_illFormed_string : WellFormed (.drawString 0 0 (2 ^ 32) []) = false := by decide
theorem test_bitmap_in_contract : InContract (.drawBitmap 10 20 3 2 [0xA0, 0x40] true) = true := by decide
theorem test_bitmap_short : InContract (.drawBitmap 10 20 9 2 [0xA0, 0x40] true) = false := by decide
theorem test_string_short : InContract (.drawString 0 0 3 [65, 66]) = false := by decide
theorem test_geometry : Config.geometryOk 128 128 = true ∧ Config.geometryOk 130 128 = false := by decide

def rawEx : RawConfig := ⟨128, 128, 0, 0, 0, 0x80, 0x7F, 0, 0x50, 0x22, 0x35, 0, 0⟩

theorem test_new_latches : (State.new rawEx).map (fun s => (s.ds, s.cfg, s.trace)) = some (.uninitialized, cfgEx, []) := by
  decide
theorem test_new_refuses_mux : State.new { rawEx with muxRatio := 128 } = none := by decide
theorem test_new_refuses_width : State.new { rawEx with width := 130 } = none := by decide

/-! ### Every constructor's decoding, from the words of R83 and R90 written out -/

theorem test_decode_setColumnLow : decode ⟨.command, [0b00000101]⟩ = .ok (.setColumnLow 5) := by decide
theorem test_decode_setColumnHigh : decode ⟨.command, [0b00010111]⟩ = .ok (.setColumnHigh 7) := by decide
theorem test_decode_setPageAddress : decode ⟨.command, [0b10110011]⟩ = .ok (.setPageAddress 3) := by decide
theorem test_decode_setContrast : decode ⟨.command, [0b10000001, 0b10001001]⟩ = .ok (.setContrast 137) := by decide
theorem test_decode_setMultiplexRatio : decode ⟨.command, [0b10101000, 0b01111111]⟩ = .ok (.setMultiplexRatio 127) := by
  decide
theorem test_decode_setDisplayOffset : decode ⟨.command, [0b11010011, 0b01100000]⟩ = .ok (.setDisplayOffset 96) := by
  decide
theorem test_decode_setClockDivide : decode ⟨.command, [0b11010101, 0b11110001]⟩ = .ok (.setClockDivide 0xF1) := by decide
theorem test_decode_setChargePeriod : decode ⟨.command, [0b11011001, 0b00100010]⟩ = .ok (.setChargePeriod 0x22) := by
  decide
theorem test_decode_setVcomLevel : decode ⟨.command, [0b11011011, 0b00110101]⟩ = .ok (.setVcomLevel 0x35) := by decide
theorem test_decode_setDisplayStartLine :
    decode ⟨.command, [0b11011100, 0b01111111]⟩ = .ok (.setDisplayStartLine 127) := by decide
theorem test_decode_setSegmentRemap : decode ⟨.command, [0b10100001]⟩ = .ok (.setSegmentRemap 1) := by decide
theorem test_decode_setScanDirection : decode ⟨.command, [0b11001000]⟩ = .ok (.setScanDirection 1) := by decide
theorem test_decode_entireDisplay : decode ⟨.command, [0b10100101]⟩ = .ok (.entireDisplay 1) := by decide
theorem test_decode_normalReverse : decode ⟨.command, [0b10100111]⟩ = .ok (.normalReverse 1) := by decide
theorem test_decode_displayOnOff : decode ⟨.command, [0b10101111]⟩ = .ok (.displayOnOff 1) := by decide
theorem test_decode_readModifyWrite : decode ⟨.command, [0b11100000]⟩ = .ok .readModifyWrite := by decide
theorem test_decode_end : decode ⟨.command, [0b11101110]⟩ = .ok .endCmd := by decide
theorem test_decode_nop : decode ⟨.command, [0b11100011]⟩ = .ok .nop := by decide
theorem test_decode_readId : decode ⟨.command, []⟩ = .ok .readId := by decide
theorem test_decode_setDcDc : decode ⟨.command, [0b10101101, 0b10001111]⟩ = .ok (.setDcDc 15) := by decide
theorem test_decode_initialize : decode ⟨.operation, [0b0000]⟩ = .ok .opInitialize := by decide
theorem test_decode_deinitialize : decode ⟨.operation, [0b0001]⟩ = .ok .deinitialize := by decide
theorem test_decode_clear : decode ⟨.operation, [0b0010]⟩ = .ok .clear := by decide
theorem test_decode_flush : decode ⟨.operation, [0b0011]⟩ = .ok .flush := by decide
/-- P1 line 7: `x=FFFF y=00C8 on=1`. -/
theorem test_decode_setPixel :
    decode ⟨.operation, [0b0100, 0xFF, 0xFF, 0x00, 0xC8, 1]⟩ = .ok (.setPixel (-1) 200 true) := by decide
/-- P4 line 4. -/
theorem test_decode_drawLine :
    decode ⟨.operation, [0b0101, 0x00, 0x7E, 0x00, 0x7E, 0x00, 0x82, 0x00, 0x81, 1]⟩ =
      .ok (.drawLine 126 126 130 129 true) := by decide
/-- P4 line 5. -/
theorem test_decode_drawCircle :
    decode ⟨.operation, [0b0110, 0x00, 0x0A, 0x00, 0x0A, 0xFF, 0xFF, 1]⟩ = .ok (.drawCircle 10 10 (-1) true) := by decide
/-- P2 line 4. -/
theorem test_decode_drawBitmap :
    decode ⟨.operation, [0b0111, 0x00, 0x0A, 0x00, 0x14, 0x00, 0x03, 0x00, 0x02, 1, 0xA0, 0x40]⟩ =
      .ok (.drawBitmap 10 20 3 2 [0xA0, 0x40] true) := by decide
/-- P2 line 5. -/
theorem test_decode_drawChar : decode ⟨.operation, [0b1000, 0, 0, 0, 0, 0xC8]⟩ = .ok (.drawChar 0 0 200) := by decide
/-- P2 line 3. -/
theorem test_decode_drawString :
    decode ⟨.operation, [0b1001, 0x00, 0x7E, 0x00, 0x00, 0, 0, 0, 2, 0x41, 0x41]⟩ =
      .ok (.drawString 126 0 2 [0x41, 0x41]) := by decide
/-- P3 line 5. -/
theorem test_decode_sendCommand :
    decode ⟨.operation, [0b1010, 0x81, 0x89]⟩ = .ok (.sendCommand (.setContrast 137)) := by decide

theorem test_decode_reserved_opsel : decode ⟨.operation, [11]⟩ = .error (.reservedOpsel 11) := by decide
/-- V6: `SetMultiplexRatio(128)` is refused, never masked. -/
theorem test_decode_mux_range : decode ⟨.command, [0xA8, 0x80]⟩ = .error (.parameterRange 0xA8 0x80) := by decide
theorem test_decode_dcdc_range : decode ⟨.operation, [10, 0xAD, 0x10]⟩ = .error (.parameterRange 0xAD 0x10) := by decide
/-- R86: 0xE1 is never emitted. -/
theorem test_decode_invalid : decode ⟨.command, [0xE1]⟩ = .error (.invalidCommand 0xE1) := by decide
/-- V7: byte 1 is data even where it equals an opcode. -/
theorem test_stream_data_byte :
    decodeStream [0x81, 0xAE, 0xAE, 0xB3] = .ok [.setContrast 0xAE, .displayOnOff 0, .setPageAddress 3] := by decide

/-- The table's words: byte 0 of a two-byte command has the high-order bits; `OPSEL` reads first. -/
theorem test_table_setContrast : decodeTableWord 16 0x8100 = some (.setContrast 0) := by decide
theorem test_table_setDcDc : decodeTableWord 16 0xAD80 = some (.setDcDc 0) := by decide
theorem test_table_setPixel : decodeTableWord 8 0x04 = some (.setPixel 0 0 false) := by decide
theorem test_table_setPageAddress : decodeTableWord 8 0xB0 = some (.setPageAddress 0) := by decide

/-! ### The codec (V1 to V5) -/

theorem test_encode_setContrast : encodeCommand (.setContrast 137) = [0x81, 0x89] := by decide
theorem test_encode_setScanDirection : encodeCommand (.setScanDirection 1) = [0xC8] := by decide
theorem test_encode_setDcDc : encodeCommand (.setDcDc 15) = [0xAD, 0x8F] := by decide
theorem test_encode_readId : encodeCommand .readId = [] := by decide
/-- V5: column 0x5A. -/
theorem test_column_split :
    encodeCommand (.setColumnLow (columnLow 0x5A)) ++ encodeCommand (.setColumnHigh (columnHigh 0x5A)) = [0x0A, 0x15] := by
  decide

/-! ### Framebuffer (V10 to V14) -/

theorem test_setPixel_1_10 : fbAfter (.setPixel 1 10 true) cleared = some [(129, 0x04)] := by decide
theorem test_setPixel_last : fbAfter (.setPixel 127 127 true) cleared = some [(2047, 0x80)] := by decide
theorem test_setPixel_no_wrap : fbAfter (.setPixel 128 0 true) (withFb [(128, 0x02)]) = some [(128, 0x02)] := by decide
/-- V12: the neighbours keep their bits. -/
theorem test_setPixel_clears_one_bit : fbAfter (.setPixel 1 10 false) (withFb [(129, 0xFF)]) = some [(129, 0xFB)] := by
  decide
theorem test_clear_guarded : fbAfter .clear { withFb [(0, 0x5A)] with ds := .uninitialized } = some [(0, 0x5A)] := by
  decide

/-- R233 step 3: `clear` settles a framebuffer whose content after construction is unspecified. -/
theorem test_clear_unspecified : fbAfter .clear { State.reset with ds := .displaying } = some [] := rfl

/-! ### Lines (V20 to V24) -/

theorem test_line_shallow : linePoints 0 0 5 2 = [(0, 0), (1, 0), (2, 1), (3, 1), (4, 2), (5, 2)] := by decide
/-- V22: a reversed line need not plot the same points. -/
theorem test_line_reversed : linePoints 2 1 0 0 = [(2, 1), (1, 0), (0, 0)] := by decide
theorem test_line_steep :
    fbAfter (.drawLine 0 0 2 5 true) cleared = some [(0, 0x03), (1, 0x0C), (2, 0x30)] := by decide
theorem test_line_clipped :
    fbAfter (.drawLine 126 126 130 129 true) cleared = some [(2046, 0x40), (2047, 0x80)] := by decide

/-! ### Circles (V25 to V28) -/

theorem test_circle_2 :
    fbAfter (.drawCircle 10 10 2 true) cleared =
      some [(136, 0x0E), (137, 0x11), (138, 0x11), (139, 0x11), (140, 0x0E)] := by decide
theorem test_circle_clipped :
    fbAfter (.drawCircle 0 0 2 true) cleared = some [(0, 0x04), (1, 0x04), (2, 0x03)] := by decide
/-- V27: the points of radius 4 with x = 6, and (7,7), in plotting order of their pass. -/
theorem test_circle_4_passes :
    (circleStep (circleStep (circleStep (circleStart 10 10 4 true)))).cx = 3 ∧
      (circleStep (circleStep (circleStep (circleStart 10 10 4 true)))).cerr = 6 := by decide

/-- V27, radius 4: `CERR = 0` at (4,1) keeps `CX`, `CERR = 5` at (4,2) does not. -/
theorem test_circle_next_pass : circleNextPass 4 (4, 1) = (4, 2) ∧ circleNextPass 4 (4, 2) = (3, 3) := by decide

/-! ### Bitmaps, characters, strings (V40 to V46) -/

theorem test_bitmap_padding :
    fbAfter (.drawBitmap 10 20 3 2 [0xBF, 0x5F] true) cleared = some [(266, 0x10), (267, 0x20), (268, 0x10)] := by decide
theorem test_bitmap_stride :
    fbAfter (.drawBitmap (-1) 126 10 3 [0xFF, 0xC0, 0x80, 0x40, 0xFF, 0xC0] true) cleared =
      some [(1920, 0x40), (1921, 0x40), (1922, 0x40), (1923, 0x40), (1924, 0x40), (1925, 0x40), (1926, 0x40),
        (1927, 0x40), (1928, 0xC0)] := by decide
theorem test_char_straddles :
    fbAfter (.drawChar 3 4 65) cleared =
      some [(3, 0xE0), (4, 0x10), (5, 0x10), (6, 0x10), (7, 0xE0),
        (131, 0x07), (132, 0x01), (133, 0x01), (134, 0x01), (135, 0x07)] := by decide
theorem test_char_opaque : fbAfter (.drawChar 0 0 32) (withFb [(0, 0xFF), (5, 0xFF)]) = some [(5, 0xFF)] := by decide
theorem test_string_cursor :
    fbAfter (.drawString 0 0 3 [65, 10, 66]) cleared =
      some [(0, 0x7E), (1, 0x11), (2, 0x11), (3, 0x11), (4, 0x7E),
        (12, 0x7F), (13, 0x49), (14, 0x49), (15, 0x49), (16, 0x36)] := by decide
theorem test_string_clipped :
    fbAfter (.drawString 120 0 2 [65, 66]) cleared =
      some [(120, 0x7E), (121, 0x11), (122, 0x11), (123, 0x11), (124, 0x7E), (126, 0x7F), (127, 0x49)] := by decide

/-! ### Device control (V30 to V35) -/

def resetEvents : List Event := [.rstRelease, .delay 100, .rstAssert, .delay 100, .rstRelease, .delay 100]

/-- V30. -/
theorem test_initialize :
    dsTraceAfter .opInitialize (inState .uninitialized) =
      some (.displaying, resetEvents ++
        [.selCmd, .write [0x00], .selCmd, .write [0x10], .selCmd, .write [0xB0], .selCmd, .write [0xDC, 0x00],
          .selCmd, .write [0x81, 0x80], .selCmd, .write [0xA6], .selCmd, .write [0xA8, 0x7F],
          .selCmd, .write [0xD3, 0x00], .selCmd, .write [0xD5, 0x50], .selCmd, .write [0xD9, 0x22],
          .selCmd, .write [0xDB, 0x35], .selCmd, .write [0xAD, 0x81], .selCmd, .write [0xAF]]) := by decide
/-- V31. -/
theorem test_deinitialize :
    dsTraceAfter .deinitialize (inState .blanked) =
      some (.deinitialized, resetEvents ++ [.selCmd, .write [0xAE]]) := by decide
/-- V33. -/
theorem test_send_display_off :
    dsTraceAfter (.sendCommand (.displayOnOff 0)) cleared = some (.blanked, [.selCmd, .write [0xAE]]) := by decide
theorem test_send_read_id : dsTraceAfter (.sendCommand .readId) cleared = some (.displaying, []) := by decide
theorem test_contrast_in_blanked :
    dsTraceAfter (.setContrast 137) (inState .blanked) = some (.blanked, [.selCmd, .write [0x81, 0x89]]) := by decide
theorem test_nop_before_initialize : dsTraceAfter .nop (inState .uninitialized) = some (.uninitialized, []) := by decide

/-! ### Flush (V50, V51) -/

/-- V51: page 1 of a flush is addressed by three commands, and its data begins `00 04 00`. -/
theorem test_flush_page_addressing :
    (State.flushPage (withFb [(0, 0x01), (129, 0x04), (2047, 0x80)]) 1).trace.take 7 =
      [.selCmd, .write [0xB1], .selCmd, .write [0x00], .selCmd, .write [0x10], .selData] := rfl
theorem test_flush_page_data :
    (Memory.readBytes [(0, 0x01), (129, 0x04), (2047, 0x80)] (1 * Config.width) 3) = [0x00, 0x04, 0x00] := by decide
/-- R32: a write after `SelData` flattens to data items. -/
theorem test_flatten :
    flatten .command [.selCmd, .write [0xB0], .selData, .write [1, 2], .delay 100] =
      [.command 0xB0, .data 1, .data 2, .delay 100] := by decide

/-! ### Steps -/

theorem test_step_from_reset :
    step (State.reset.withFetchWord 8 0x04) = exec (.setPixel 0 0 false) State.reset := rfl
theorem test_step_waits : step cleared = .next cleared := rfl
theorem test_step_refuses :
    step (cleared.place ⟨.operation, [12]⟩) = .refused (.noInstruction (.reservedOpsel 12)) := rfl

/-! ### Witnesses: the hypotheses of each statement of Certificates/Slice0 hold together somewhere

One theorem for each statement that has hypotheses, named after it; where it has several clauses, each clause is met at a
boundary of its range. -/

theorem witness_DecodeOfEncode : WellFormed (.drawString (-1) 0 (2 ^ 32 - 1) [65]) = true := by decide
theorem witness_EncodeOfDecode : decode ⟨.operation, [9, 0xFF, 0xFF, 0, 0, 0xFF, 0xFF, 0xFF, 0xFF, 65]⟩ =
    .ok (.drawString (-1) 0 (2 ^ 32 - 1) [65]) := by decide
theorem witness_CommandEncodingInjective :
    Command.setDcDc 15 ≠ .readId ∧ encodeCommand (.setDcDc 15) = encodeCommand (.setDcDc 15) := by decide
theorem witness_CommandStreamDecodes : Command.readId ∉ [Command.setContrast 0xAE, .displayOnOff 0, .setPageAddress 15] := by
  decide
/-- `Ready`, `Displaying` and `Blanked` are the states of R148. -/
theorem witness_AddressCommandsSend : acceptsCommands (inState .ready).ds = true := by decide
theorem witness_SettingCommandsSend : acceptsCommands (inState .blanked).ds = true := by decide
theorem witness_SwitchCommandsSend : acceptsCommands cleared.ds = true := by decide
theorem witness_DisplayOnOffMovesDs : acceptsCommands (inState .blanked).ds = true := by decide
theorem witness_InitializeRuns :
    (inState .uninitialized).ds ≠ .deinitialized ∧ (inState .deinitialized).ds = .deinitialized := by decide
theorem witness_DeinitializeRuns :
    (inState .uninitialized).ds ≠ .deinitialized ∧ (inState .deinitialized).ds = .deinitialized := by decide
theorem witness_DeinitializedIsFinal : (inState .deinitialized).ds = .deinitialized := by decide
theorem witness_StateChart :
    stable (inState .uninitialized).ds = true ∧ chartNoOp .uninitialized .nop = true ∧
      stable (inState .blanked).ds = true ∧ chartNoOp .blanked .flush = true := by decide
theorem witness_GuardSilent :
    Instr.isFramebufferOp .flush = true ∧ (inState .blanked).ds ≠ .ready ∧ (inState .blanked).ds ≠ .displaying := by decide
theorem witness_SetPixelWrites :
    operational (withFb [(2047, 0x80)]).ds = true ∧ Memory.wf Config.fbSize (withFb [(2047, 0x80)]).fb := by decide
/-- Out of range by one; in range at the last pixel, clear and set. -/
theorem witness_SetPixelProperties :
    ¬(0 ≤ (128 : Coord).toInt ∧ (128 : Coord).toInt < 128 ∧ 0 ≤ (0 : Coord).toInt ∧ (0 : Coord).toInt < 128) ∧
      (0 ≤ (127 : Coord).toInt ∧ (127 : Coord).toInt < 128) ∧ operational (withFb [(2047, 0x7F)]).ds = true ∧
      Memory.wf Config.fbSize (withFb [(2047, 0x7F)]).fb ∧ pixelAt (withFb [(2047, 0x7F)]).fb 127 127 = false := by decide
theorem witness_ClearZeroes :
    Memory.wf Config.fbSize (withFb [(0, 0xFF), (2047, 0x80)]).fb ∧ operational cleared.ds = true ∧
      operational (inState .blanked).ds = false := by decide
theorem witness_LinePlots :
    operational (inState .ready).ds = true ∧ Memory.wf Config.fbSize (withFb [(129, 0x04)]).fb := by decide
/-- A step in both (V22, from the tie `2 * err = dx` of R171 (f)), the last step in x alone, a step in y alone. -/
theorem witness_LineStepsByOne :
    ((linePoints 0 0 2 1)[0]? = some (0, 0) ∧ (linePoints 0 0 2 1)[0 + 1]? = some (1, 1)) ∧
      ((linePoints 0 0 5 2)[4]? = some (4, 2) ∧ (linePoints 0 0 5 2)[4 + 1]? = some (5, 2)) ∧
      (linePoints 0 0 2 5)[0]? = some (0, 0) ∧ (linePoints 0 0 2 5)[0 + 1]? = some (0, 1) := by decide
theorem witness_LineErrorBounded :
    5 ≤ max ((5 : Coord).toInt - (0 : Coord).toInt).natAbs ((2 : Coord).toInt - (0 : Coord).toInt).natAbs := by decide
theorem witness_CirclePlots :
    operational (inState .ready).ds = true ∧ Memory.wf Config.fbSize (withFb [(129, 0x04)]).fb := by decide
theorem witness_CircleSmallRadii : (-1 : Int) < 0 := by decide
theorem witness_CircleSymmetric : ((10 : Int) + 2, (10 : Int) + 1) ∈ circlePoints 10 10 2 true := by decide
theorem witness_CircleExtent : (0 : Int) ≤ 0 := by decide
theorem witness_BitmapStencil :
    (0 : Coord).toInt ≤ 0 ∧ operational cleared.ds = true ∧ 0 < (9 : Coord).toInt ∧ 0 < (1 : Coord).toInt ∧
      Memory.wf Config.fbSize cleared.fb ∧ InContract (.drawBitmap 127 127 9 1 [0x80, 0x80] true) = true ∧
      operational (inState .blanked).ds = false := by decide
/-- One byte short of the contract. -/
theorem witness_BitmapBoxOnly :
    operational cleared.ds = true ∧ 0 < (9 : Coord).toInt ∧ 0 < (1 : Coord).toInt ∧ Memory.wf Config.fbSize cleared.fb ∧
      InContract (.drawBitmap 0 0 9 1 [0x80] true) = false := by decide
/-- V41: three columns, the five bits after them padding. -/
theorem witness_BitmapPaddingUnread :
    [0xA0#8].length = [0xBF#8].length ∧
      ∀ i j : Nat, (i : Int) < (3 : Coord).toInt → (j : Int) < (1 : Coord).toInt →
        ([0xA0#8].getD (j * (((3 : Coord).toNat + 7) / 8) + i / 8) 0).getLsbD (7 - i % 8) =
          ([0xBF#8].getD (j * (((3 : Coord).toNat + 7) / 8) + i / 8) 0).getLsbD (7 - i % 8) := by
  refine ⟨rfl, fun i j hi hj => ?_⟩
  have hi : (i : Int) < 3 := hi
  have hj : (j : Int) < 1 := hj
  obtain rfl : j = 0 := by omega
  have : i < 3 := by omega
  interval_cases i <;> rfl
/-- Codes 31 and 128 are invalid, 32 and 127 valid (R183). -/
theorem witness_CharCells :
    (31 : Byte).toNat < 32 ∧ 127 < (128 : Byte).toNat ∧ 32 ≤ (32 : Byte).toNat ∧ (127 : Byte).toNat ≤ 127 ∧
      operational cleared.ds = true ∧ Memory.wf Config.fbSize cleared.fb ∧ operational (inState .blanked).ds = false := by
  decide
theorem witness_CharAlignedBytes :
    operational cleared.ds = true ∧ 32 ≤ (127 : Byte).toNat ∧ (127 : Byte).toNat ≤ 127 ∧
      Memory.wf Config.fbSize cleared.fb ∧ (123 : Coord).toNat ≤ 123 ∧ (120 : Coord).toNat < 128 ∧
      (120 : Coord).toNat % 8 = 0 := by decide
theorem witness_CharReplaces :
    operational cleared.ds = true ∧ 32 ≤ (32 : Byte).toNat ∧ (32 : Byte).toNat ≤ 127 ∧
      Memory.wf Config.fbSize cleared.fb := by decide
theorem witness_StringPixels :
    operational (inState .blanked).ds = false ∧ operational cleared.ds = true ∧ Memory.wf Config.fbSize cleared.fb ∧
      InContract (.drawString 122 0 2 [65, 66]) = true := by decide
/-- One code short of the length. -/
theorem witness_StringCellsOnly :
    operational cleared.ds = true ∧ Memory.wf Config.fbSize cleared.fb ∧ InContract (.drawString 0 0 3 [65, 66]) = false := by
  decide
theorem witness_StringIsCharThenRest : operational cleared.ds = true ∧ (127 : Coord).toInt < 128 := by decide
theorem witness_FlushEmits : operational (inState .ready).ds = true ∧ operational (inState .blanked).ds = false := by decide
theorem witness_FlushStream : operational (inState .ready).ds = true := by decide
theorem witness_ClearThenFlush :
    operational cleared.ds = true ∧ Memory.wf Config.fbSize (withFb [(0, 0xFF)]).fb := by decide
theorem witness_StepRunsDecoded :
    (cleared.place ⟨.operation, [2]⟩).port = [⟨.operation, [2]⟩] ∧ decode ⟨.operation, [2]⟩ = .ok .clear ∧
      cleared.port = [] ∧ decode ⟨.operation, [4]⟩ = .error .operandForm := by decide
theorem witness_ReservedOpselRefused :
    11 ≤ (11 : Byte).toNat ∧ (15 : Byte).toNat ≤ 15 ∧
      (cleared.place ⟨.operation, [15, 0]⟩).port = ⟨.operation, 15 :: [0]⟩ :: [] := by decide
/-- What R33 leaves unspecified in `FB` is the free byte of log 7. -/
theorem test_reset_fb : State.reset.fb = Memory.ofFn 2048 Config.fbInit := rfl
/-- Every field at the top of its range (R22). -/
theorem witness_ConstructionValidates :
    ∃ s, State.new ⟨128, 128, 127, 15, 127, 255, 127, 127, 255, 255, 255, 1, 1⟩ = some s := ⟨_, rfl⟩
theorem witness_StepKeepsInvariant :
    cleared.Inv ∧ ∃ t, step (cleared.place ⟨.command, [0xE3]⟩) = .next t ∧ t.trace = [.selCmd, .write [0xE3]] :=
  ⟨⟨by decide, by decide, rfl, rfl⟩, _, rfl, rfl⟩
theorem witness_TraceOnlyGrows :
    ∃ t, step (cleared.place ⟨.operation, [1]⟩) = .next t ∧ t.ds = .deinitialized := ⟨_, rfl, rfl⟩
theorem witness_ConfigurationNeverWritten :
    ∃ t, step (cleared.place ⟨.operation, [1]⟩) = .next t ∧ t.cfg = cfgEx := ⟨_, rfl, rfl⟩
theorem witness_OwnersOnly :
    (∃ t, exec (.setPixel 127 127 true) cleared = .next t) ∧ Instr.draws (.setPixel 127 127 true) = true ∧
      (∃ t, exec .nop cleared = .next t) ∧ Instr.draws .nop = false := ⟨⟨_, rfl⟩, rfl, ⟨_, rfl⟩, rfl⟩
theorem witness_FbLeavesOnlyByFlush : Instr.clear ≠ .flush := by decide

end Sys2Proof.Tests
end

section
/-! PROOFS. What one step of the machine is and what it never writes (R14, R22, R28, R206), and what the validated
construction latches (R9, R22, R206, R230). -/

namespace Sys2Proof.Machine

/-! ### One step -/

theorem fetch_of_port_nil {s : State} (hp : s.port = []) : fetch s = none := by
  simp only [fetch, hp]

theorem fetch_of_port_cons {s : State} {r : Request} {rest : List Request} (hp : s.port = r :: rest) :
    fetch s = some (decode r, { s with port := rest }) := by
  simp only [fetch, hp]

/-- With no request the core waits (R230). -/
theorem step_of_port_nil {s : State} (hp : s.port = []) : step s = .next s := by
  simp only [step, fetch_of_port_nil hp]

/-- A request that is an instruction leaves the port and runs (R14). -/
theorem step_of_decode_ok {s : State} {r : Request} {rest : List Request} {i : Instr} (hp : s.port = r :: rest)
    (hd : decode r = .ok i) : step s = exec i { s with port := rest } := by
  simp only [step, fetch_of_port_cons hp, hd]

/-- A request that is no instruction is refused with the decoder's reason (R206). -/
theorem step_of_decode_error {s : State} {r : Request} {rest : List Request} {e : DecodeError}
    (hp : s.port = r :: rest) (hd : decode r = .error e) : step s = .refused (.noInstruction e) := by
  simp only [step, fetch_of_port_cons hp, hd]

/-- Settles O48, one lemma for each of the three things a step can meet on the port. -/
theorem stepRunsDecoded : Obligations.StepRunsDecoded :=
  ⟨fun _ _ _ _ hp hd => step_of_decode_ok hp hd, fun _ hp => step_of_port_nil hp,
    fun _ _ _ _ hp hd => step_of_decode_error hp hd⟩

/-! ### What no instruction writes -/

/-- Neither drawing nor emitting writes the constants of the core's life (R10, R22, R28). -/
theorem exec_keeps_configuration {i : Instr} {s t : State} (h : exec i s = .next t) :
    t.cfg = s.cfg ∧ t.font = s.font ∧ t.initDcdc = s.initDcdc := by
  obtain rfl | ⟨-, -, -, -, ht⟩ | ⟨-, -, es, -, ht⟩ := exec_cases h
  · exact ⟨rfl, rfl, rfl⟩
  · rw [ht]; exact ⟨rfl, rfl, rfl⟩
  · rw [ht]; exact ⟨rfl, rfl, rfl⟩

/-- Settles O56: a step waits or runs one instruction, and taking a request off the port writes only the port. -/
theorem configurationNeverWritten : Obligations.ConfigurationNeverWritten := by
  intro s t h
  obtain ⟨-, rfl⟩ | ⟨r, rest, i, -, -, hi⟩ := step_cases h
  · exact ⟨rfl, rfl, rfl⟩
  · exact (exec_keeps_configuration hi :)

/-! ### Validated construction -/

/-- The check of R206 (1), (2): this core's geometry, and every field within the width R22 gives it. -/
theorem RawConfig.valid_iff (c : RawConfig) :
    c.valid = true ↔
      c.width = 128 ∧ c.height = 128 ∧ c.column < 2 ^ 7 ∧ c.page < 2 ^ 4 ∧ c.startLine < 2 ^ 7 ∧ c.contrast < 2 ^ 8 ∧
      c.muxRatio < 2 ^ 7 ∧ c.offset < 2 ^ 7 ∧ c.clockDivide < 2 ^ 8 ∧ c.chargePeriod < 2 ^ 8 ∧ c.vcomLevel < 2 ^ 8 ∧
      c.remap < 2 ^ 1 ∧ c.scanDirection < 2 ^ 1 := by
  have hgeo : ∀ w h : Nat, (Config.geometryOk w h = true ∧ w = 128 ∧ h = 128) ↔ (w = 128 ∧ h = 128) :=
    fun w h => ⟨And.right, fun hwh => ⟨by rw [hwh.1, hwh.2]; rfl, hwh⟩⟩
  simp only [RawConfig.valid, Bool.and_eq_true, decide_eq_true_eq, beq_iff_eq, Config.width, Config.height, and_assoc]
  simpa only [and_assoc] using and_congr_left' (hgeo c.width c.height)

/-- The `CFG` that a core takes from plain integers, each cut to the width of its field (R22). -/
def RawConfig.latched (c : RawConfig) : DisplayConfig where
  column := BitVec.ofNat 7 c.column
  page := BitVec.ofNat 4 c.page
  startLine := BitVec.ofNat 7 c.startLine
  contrast := BitVec.ofNat 8 c.contrast
  muxRatio := BitVec.ofNat 7 c.muxRatio
  offset := BitVec.ofNat 7 c.offset
  clockDivide := BitVec.ofNat 8 c.clockDivide
  chargePeriod := BitVec.ofNat 8 c.chargePeriod
  vcomLevel := BitVec.ofNat 8 c.vcomLevel
  remap := BitVec.ofNat 1 c.remap
  scanDirection := BitVec.ofNat 1 c.scanDirection

/-- The plain integers of a configuration, for the geometry of this core. -/
def RawConfig.ofConfig (d : DisplayConfig) : RawConfig :=
  ⟨128, 128, d.column.toNat, d.page.toNat, d.startLine.toNat, d.contrast.toNat, d.muxRatio.toNat, d.offset.toNat,
    d.clockDivide.toNat, d.chargePeriod.toNat, d.vcomLevel.toNat, d.remap.toNat, d.scanDirection.toNat⟩

theorem State.new_eq_some_iff {c : RawConfig} {s : State} :
    State.new c = some s ↔ c.valid = true ∧ State.construct c.latched = s :=
  Option.ite_none_right_eq_some.trans (and_congr_right' Option.some_inj)

/-- The integers of a configuration are in range. -/
theorem RawConfig.valid_ofConfig (d : DisplayConfig) : (RawConfig.ofConfig d).valid = true := by
  rw [RawConfig.valid_iff]
  exact ⟨rfl, rfl, d.column.isLt, d.page.isLt, d.startLine.isLt, d.contrast.isLt, d.muxRatio.isLt, d.offset.isLt,
    d.clockDivide.isLt, d.chargePeriod.isLt, d.vcomLevel.isLt, d.remap.isLt, d.scanDirection.isLt⟩

/-- Latching the integers of a configuration gives it back. -/
theorem RawConfig.latched_ofConfig (d : DisplayConfig) : (RawConfig.ofConfig d).latched = d := by
  simp only [RawConfig.latched, RawConfig.ofConfig, BitVec.ofNat_toNat, BitVec.setWidth_eq]

/-- Settles O52: in range nothing is cut, and the integers of a configuration are in range. -/
theorem constructionValidates : Obligations.ConstructionValidates := by
  refine ⟨fun c s h => ?_, fun d => ?_⟩
  · obtain ⟨hv, rfl⟩ := State.new_eq_some_iff.mp h
    obtain ⟨hw, hh, hcol, hpage, hline, hcon, hmux, hoff, hclk, hchg, hvcom, hremap, hscan⟩ := c.valid_iff.mp hv
    exact ⟨by rw [hw], by rw [hh], rfl, rfl, Nat.mod_eq_of_lt hcol, Nat.mod_eq_of_lt hpage, Nat.mod_eq_of_lt hline,
      Nat.mod_eq_of_lt hcon, Nat.mod_eq_of_lt hmux, Nat.mod_eq_of_lt hoff, Nat.mod_eq_of_lt hclk,
      Nat.mod_eq_of_lt hchg, Nat.mod_eq_of_lt hvcom, Nat.mod_eq_of_lt hremap, Nat.mod_eq_of_lt hscan⟩
  · exact State.new_eq_some_iff.mpr
      ⟨RawConfig.valid_ofConfig d, congrArg State.construct (RawConfig.latched_ofConfig d)⟩

end Sys2Proof.Machine
end

section
/-! PROOFS. The state (10_state.md): the invariant at construction and under every step (R20, R24, R30, R33), how the
trace grows (R31), who owns which part of the state (R50, R63), and that nobody reads the working registers (R25 to
R27). -/

namespace Sys2Proof.Machine

/-! ### Construction -/

/-- Settles O51: construction latches the configuration, and `State.reset` is the construction with `CFG_INIT`. -/
theorem resetState : Obligations.ResetState := ⟨fun _ => ⟨rfl, rfl, rfl⟩, rfl⟩

/-- Settles O53: a memory built from any function is in canonical form, and an empty trace writes nothing. -/
theorem invariantAtReset : Obligations.InvariantAtReset where
  fb_wf := State.reset_fb ▸ Memory.ofFn_wf Config.fbSize Config.fbInit
  font_wf := State.reset_font ▸ Memory.ofFn_wf Config.fontSize Config.fontInit
  ds_stable := rfl
  trace_selected := rfl

/-! ### The invariant under a step -/

/-- The invariant does not read the port. -/
theorem State.Inv.withPort {s : State} (h : s.Inv) (rest : List Request) : State.Inv { s with port := rest } :=
  ⟨h.fb_wf, h.font_wf, h.ds_stable, h.trace_selected⟩

/-- Drawing keeps the framebuffer canonical and touches nothing else of the invariant. -/
theorem Drawn.inv {s t : State} (h : Drawn s t) (hs : s.Inv) : t.Inv := by
  obtain ⟨-, hfb, ht⟩ := h
  have hwf := hfb hs.fb_wf
  rw [ht]
  exact ⟨hwf, hs.font_wf, hs.ds_stable, hs.trace_selected⟩

/-- Events that select before they write keep the trace selected, and `DS` ends stable. -/
theorem Emitted.inv {s t : State} (h : Emitted s t) (hs : s.Inv) : t.Inv := by
  obtain ⟨-, hds, es, hes, ht⟩ := h
  have hstable := hds hs.ds_stable
  have hsel : writesSelected false (s.trace ++ es) = true := by
    rw [writesSelected_append, hs.trace_selected, hes]; rfl
  rw [ht]
  exact ⟨hs.fb_wf, hs.font_wf, hstable, hsel⟩

/-- Every instruction keeps the invariant. -/
theorem exec_keeps_inv {i : Instr} {s t : State} (hs : s.Inv) (h : exec i s = .next t) : t.Inv := by
  obtain rfl | ⟨-, -, hd⟩ | he := exec_cases h
  · exact hs
  · exact hd.inv hs
  · exact he.inv hs

/-- Settles O54: a step waits or runs one instruction. -/
theorem stepKeepsInvariant : Obligations.StepKeepsInvariant := by
  intro s t hs h
  obtain ⟨-, rfl⟩ | ⟨r, rest, i, -, -, hi⟩ := step_cases h
  · exact hs
  · exact exec_keeps_inv (hs.withPort rest) hi

/-! ### The trace and the pins -/

/-- An instruction appends events, and the pins are where those events drive them (R30, R31). -/
theorem exec_appends_events {i : Instr} {s t : State} (h : exec i s = .next t) :
    ∃ es, t.trace = s.trace ++ es ∧ t.pins = pinsAfter s.pins es := by
  obtain rfl | ⟨-, -, -, -, ht⟩ | ⟨-, -, es, -, ht⟩ := exec_cases h
  · exact ⟨[], (List.append_nil _).symm, rfl⟩
  · exact ⟨[], by rw [ht]; exact (List.append_nil _).symm, by rw [ht]; rfl⟩
  · exact ⟨es, by rw [ht], by rw [ht]⟩

/-- Settles O55: a waiting step appends nothing; otherwise the one instruction appends its events. -/
theorem traceOnlyGrows : Obligations.TraceOnlyGrows := by
  intro s t h
  obtain ⟨-, rfl⟩ | ⟨r, rest, i, -, -, hi⟩ := step_cases h
  · exact ⟨[], (List.append_nil _).symm, rfl⟩
  · exact (exec_appends_events hi :)

/-! ### Owners -/

theorem draws_iff {i : Instr} : i.draws = true ↔ i.isFramebufferOp = true ∧ i ≠ .flush := by
  rw [Instr.draws, Bool.and_eq_true, bne_iff_ne]

/-- A change of state that neither emits nor moves `DS`. -/
def KeepsDevice (f : State → State) : Prop :=
  ∀ s, (f s).trace = s.trace ∧ (f s).pins = s.pins ∧ (f s).ds = s.ds

theorem KeepsDevice.whenOperational {f : State → State} (hf : KeepsDevice f) :
    KeepsDevice fun s => s.whenOperational f := by
  intro s
  simp only [State.whenOperational]
  split
  · exact hf s
  · exact ⟨rfl, rfl, rfl⟩

theorem keepsDevice_drawBitmap (x y w h : Int) (bitmap : List Byte) (on : Bool) :
    KeepsDevice fun s => s.drawBitmap x y w h bitmap on := by
  intro s
  simp only [State.drawBitmap]
  split <;> exact ⟨rfl, rfl, rfl⟩

/-- An instruction that draws emits nothing and leaves `DS` (R50, R63). -/
theorem exec_draws_keepsDevice {i : Instr} {s t : State} (hd : i.draws = true) (h : exec i s = .next t) :
    t.trace = s.trace ∧ t.pins = s.pins ∧ t.ds = s.ds := by
  obtain ⟨hf, hne⟩ := draws_iff.mp hd
  have guarded : ∀ f : State → State, (.next (s.whenOperational f) : Result) = .next t → KeepsDevice f →
      t.trace = s.trace ∧ t.pins = s.pins ∧ t.ds = s.ds := by
    intro f he hk
    cases he
    exact hk.whenOperational s
  cases i
  case flush => exact absurd rfl hne
  case clear => exact guarded _ h fun _ => ⟨rfl, rfl, rfl⟩
  case setPixel => exact guarded _ h fun _ => ⟨rfl, rfl, rfl⟩
  case drawLine => exact guarded _ h fun _ => ⟨rfl, rfl, rfl⟩
  case drawCircle => exact guarded _ h fun _ => ⟨rfl, rfl, rfl⟩
  case drawBitmap => exact guarded _ h (keepsDevice_drawBitmap _ _ _ _ _ _)
  case drawChar => exact guarded _ h fun _ => by split <;> exact ⟨rfl, rfl, rfl⟩
  case drawString => exact guarded _ h fun _ => ⟨rfl, rfl, rfl⟩
  all_goals cases hf

/-- An instruction that does not draw leaves `FB` (R50). -/
theorem exec_keeps_fb {i : Instr} {s t : State} (hd : i.draws = false) (h : exec i s = .next t) : t.fb = s.fb := by
  obtain rfl | ⟨hf, hne, -⟩ | ⟨-, -, es, -, ht⟩ := exec_cases h
  · rfl
  · exact absurd (draws_iff.mpr ⟨hf, hne⟩) (by simp [hd])
  · rw [ht]

/-- `flush` leaves `DS` (R20, R34). -/
theorem exec_flush_keeps_ds {s t : State} (h : exec .flush s = .next t) : t.ds = s.ds := by
  have h : execFlush s = .next t := h
  cases ho : operational s.ds
  · rw [execFlush, State.whenOperational_false ho] at h
    cases h; rfl
  · rw [execFlush_eq ho] at h
    cases h; rfl

/-- Settles O57, one lemma for each owner. -/
theorem ownersOnly : Obligations.OwnersOnly :=
  fun _ _ _ h => ⟨fun hd => exec_draws_keepsDevice hd h, fun hd => exec_keeps_fb hd h,
    fun hf => exec_flush_keeps_ds (hf ▸ h)⟩

/-! ### The working registers are not read -/

/-- What `f` does to the rest of the state does not depend on the working registers. -/
def IgnoresWork (f : State → State) : Prop :=
  ∀ s w, f { s with work := w } = { f s with work := (f { s with work := w }).work }

/-- A guard that does not read the working registers chooses the same branch whatever they hold. -/
theorem IgnoresWork.ite {p : State → Prop} [DecidablePred p] {f g : State → State}
    (hp : ∀ s w, p { s with work := w } ↔ p s) (hf : IgnoresWork f) (hg : IgnoresWork g) :
    IgnoresWork fun s => if p s then f s else g s := by
  intro s w
  simp only [hp]
  split
  · exact hf s w
  · exact hg s w

theorem ignoresWork_id : IgnoresWork id := fun _ _ => rfl

theorem IgnoresWork.whenOperational {f : State → State} (hf : IgnoresWork f) :
    IgnoresWork fun s => s.whenOperational f :=
  .ite (fun _ _ => Iff.rfl) hf ignoresWork_id

theorem ignoresWork_sendCommand (c : Command) : IgnoresWork fun s => s.sendCommand c := by
  intro s w
  beta_reduce
  by_cases hs : acceptsCommands s.ds = true
  · by_cases hc : c = .readId
    · subst hc; simp only [State.sendCommand_readId]
    · rw [State.sendCommand_eq s hs hc, State.sendCommand_eq { s with work := w } hs hc]; rfl
  · have hs : acceptsCommands s.ds = false := Bool.eq_false_of_not_eq_true hs
    rw [State.sendCommand_ignored s c hs, State.sendCommand_ignored { s with work := w } c hs]

theorem ignoresWork_runInitialize : IgnoresWork State.runInitialize := by
  intro s w
  rw [State.runInitialize_eq s, State.runInitialize_eq { s with work := w }]
  rfl

theorem ignoresWork_flushPages :
    IgnoresWork fun s => ((List.range Config.pages).foldl State.flushPage s).leaveFlush := by
  intro s w
  have hp : ∀ p ∈ List.range Config.pages, p < 16 := fun _ => List.mem_range.mp
  simp only [State.flushPages_eq _ hp]
  rfl

/-- Settles O58: for each instruction, its body and its guard ignore the working registers. -/
theorem workRegistersUnread : Obligations.WorkRegistersUnread := by
  intro i s w
  have runs : ∀ f : State → State, exec i = (fun s => .next (f s)) → IgnoresWork f →
      ∃ t u, exec i s = .next t ∧ exec i { s with work := w } = .next u ∧ u = { t with work := u.work } :=
    fun f he hf => ⟨_, _, congrFun he _, congrFun he _, hf s w⟩
  cases i
  case opInitialize => exact runs _ rfl (.ite (fun _ _ => Iff.rfl) ignoresWork_id ignoresWork_runInitialize)
  case deinitialize => exact runs _ rfl (.ite (fun _ _ => Iff.rfl) ignoresWork_id fun _ _ => rfl)
  case clear => exact runs _ rfl (.whenOperational fun _ _ => rfl)
  case flush => exact runs _ rfl ignoresWork_flushPages.whenOperational
  case setPixel => exact runs _ rfl (.whenOperational fun _ _ => rfl)
  case drawLine => exact runs _ rfl (.whenOperational fun _ _ => rfl)
  case drawCircle => exact runs _ rfl (.whenOperational fun _ _ => rfl)
  case drawBitmap => exact runs _ rfl (.whenOperational (.ite (fun _ _ => Iff.rfl) ignoresWork_id fun _ _ => rfl))
  case drawChar => exact runs _ rfl (.whenOperational (.ite (fun _ _ => Iff.rfl) (fun _ _ => rfl) ignoresWork_id))
  case drawString => exact runs _ rfl (.whenOperational fun _ _ => rfl)
  all_goals exact runs _ rfl (ignoresWork_sendCommand _)

/-! ### Lines and circles -/

/-- Points plotted in one colour: pixels take it exactly where a point lies, and no byte outside `FB` changes (R161). -/
theorem plotAll_colourPoints_spec {fb : List Host.Cell} (h : FbWf fb) (ps : List (Int × Int)) (on : Bool) :
    (∀ px py : Nat, px < 128 → py < 128 → pixelAt (plotAll fb (colourPoints ps on)) px py =
      if ((px : Int), (py : Int)) ∈ ps then on else pixelAt fb px py) ∧
    ∀ a, 2048 ≤ a → Memory.read (plotAll fb (colourPoints ps on)) a = Memory.read fb a :=
  ⟨fun _ _ hx hy => pixelAt_colourPoints h ps on hx hy, fun _ ha =>
    (Memory.read_outside (plotAll_wf h _) ha).trans (Memory.read_outside h ha).symm⟩

/-- Settles O25: past the guard `draw_line` plots its walk and leaves its registers. -/
theorem linePlots : Obligations.LinePlots := fun _ _ _ _ on _ ho hw =>
  ⟨_, congrArg Host.Outcome.next (State.whenOperational_true ho _), rfl, plotAll_colourPoints_spec hw _ on⟩

/-- Settles O30: past the guard `draw_circle` plots its passes and leaves its registers. -/
theorem circlePlots : Obligations.CirclePlots := fun _ _ _ on _ ho hw =>
  ⟨_, congrArg Host.Outcome.next (State.whenOperational_true ho _), rfl, plotAll_colourPoints_spec hw _ on⟩

/-! ### The stream of a flush -/

theorem commandBytes_append (xs ys : List StreamItem) :
    commandBytes (xs ++ ys) = commandBytes xs ++ commandBytes ys := by
  induction xs with
  | nil => rfl
  | cons x xs ih => cases x <;> simp [commandBytes, ih]

theorem dataBytes_append (xs ys : List StreamItem) : dataBytes (xs ++ ys) = dataBytes xs ++ dataBytes ys := by
  induction xs with
  | nil => rfl
  | cons x xs ih => cases x <;> simp [dataBytes, ih]

theorem commandBytes_map_data (bs : List Byte) : commandBytes (bs.map .data) = [] := by
  induction bs with
  | nil => rfl
  | cons b bs ih => exact ih

theorem dataBytes_map_data (bs : List Byte) : dataBytes (bs.map .data) = bs := by
  induction bs with
  | nil => rfl
  | cons b bs ih => exact congrArg (b :: ·) ih

/-- A page of a flush flattens to its three command bytes and its 128 data bytes, from any mode (R32, R195). -/
theorem flatten_pageEvents (mode : TransportMode) (fb : List Host.Cell) (p : Nat) (es : List Event) :
    flatten mode (pageEvents fb p ++ es) =
      [.command (0xB0#8 ||| BitVec.ofNat 8 p), .command 0x00, .command 0x10] ++
        ((List.range 128).map fun c => Memory.read fb (128 * p + c)).map .data ++ flatten .data es := by
  simp [pageEvents, flatten, writeItems]

theorem commandBytes_flatten_pages (mode : TransportMode) (fb : List Host.Cell) (pages : List Nat) :
    commandBytes (flatten mode (pages.flatMap (pageEvents fb))) =
      pages.flatMap fun p => [0xB0#8 ||| BitVec.ofNat 8 p, 0x00, 0x10] := by
  induction pages generalizing mode with
  | nil => rfl
  | cons p pages ih =>
    rw [List.flatMap_cons, flatten_pageEvents, commandBytes_append, commandBytes_append, commandBytes_map_data, ih]
    rfl

theorem dataBytes_flatten_pages (mode : TransportMode) (fb : List Host.Cell) (pages : List Nat) :
    dataBytes (flatten mode (pages.flatMap (pageEvents fb))) =
      pages.flatMap fun p => (List.range 128).map fun c => Memory.read fb (128 * p + c) := by
  induction pages generalizing mode with
  | nil => rfl
  | cons p pages ih =>
    rw [List.flatMap_cons, flatten_pageEvents, dataBytes_append, dataBytes_append, dataBytes_map_data, ih]
    rfl

/-- Rows of `n` in turn, `m` of them, are the first `n * m` indices in order. -/
theorem flatMap_rows {α : Type} (f : Nat → α) (n m : Nat) :
    ((List.range m).flatMap fun p => (List.range n).map fun c => f (n * p + c)) = (List.range (n * m)).map f := by
  induction m with
  | zero => rfl
  | succ m ih =>
    rw [List.range_succ, List.flatMap_append, ih, Nat.mul_succ, List.range_add, List.map_append]
    simp

/-- Settles O46: the events of the sixteen pages, flattened. -/
theorem flushStream : Obligations.FlushStream := by
  intro s mode ho
  exact ⟨_, _, execFlush_eq ho, rfl, commandBytes_flatten_pages mode s.fb _,
    (dataBytes_flatten_pages mode s.fb _).trans (flatMap_rows (Memory.read s.fb) 128 16)⟩

end Sys2Proof.Machine
end

section
/-! PROOFS. The framebuffer's memory (R24, R50 to R52): operands that are short in memory draw only where they may
(R180, R186, log 18), and what `FB` holds reaches nothing outside `FB` but through `flush` (R51, R63). -/

namespace Sys2Proof.Machine

/-! ### Operands short in memory -/

/-- Plotting changes no address outside `FB` (R54). -/
theorem read_plotAll_outside {fb : List Host.Cell} (h : FbWf fb) (ps : List Plot) {a : Nat} (ha : 2048 ≤ a) :
    Memory.read (plotAll fb ps) a = Memory.read fb a :=
  (Memory.read_outside (plotAll_wf h ps) ha).trans (Memory.read_outside h ha).symm

/-- Whatever bytes a bitmap reads, its plots lie in its box and have its colour (R180). -/
theorem bitmapPlots_in_box {bitmap : List Byte} {draw : Nat} {x y w h : Int} {on : Bool} {p : Plot}
    (hp : p ∈ bitmapPlots bitmap draw x y w.toNat h.toNat on) :
    p.on = on ∧ x ≤ p.x ∧ p.x < x + w ∧ y ≤ p.y ∧ p.y < y + h := by
  obtain ⟨i, j, hi, hj, -, rfl⟩ := mem_bitmapPlots.mp hp
  refine ⟨rfl, ?_, ?_, ?_, ?_⟩ <;> dsimp only <;> omega

/-- Settles O35: the plots are in the box and in the colour, so a pixel that none of them names stays. -/
theorem bitmapBoxOnly : Obligations.BitmapBoxOnly := by
  intro x y w h bitmap on s ho hw hh hwf
  have hsides : ¬(w.toInt ≤ 0 ∨ h.toInt ≤ 0) := by omega
  refine ⟨_, congrArg Host.Outcome.next
    ((State.whenOperational_true ho _).trans (State.drawBitmap_eq s hsides)), rfl, fun px py hx hy => ?_,
    fun a ha => read_plotAll_outside hwf _ ha⟩
  rw [State.leaveBlit_fb, State.plot_fb]
  constructor
  · rw [pixelAt_plotAll hwf _ hx hy fun p hp _ => (bitmapPlots_in_box hp).1]
    split
    · exact .inr rfl
    · exact .inl rfl
  · refine fun hout => pixelAt_plotAll_of_not_mem hwf _ hx hy fun p hp ⟨hpx, hpy⟩ => hout ?_
    rw [← hpx, ← hpy]
    exact (bitmapPlots_in_box hp).2

/-- Whatever the code, valid or not, the plots of a character lie in its 5 by 8 box (R184). -/
theorem glyphPlots_in_box {font : List Host.Cell} {x y : Int} {c : Byte} {p : Plot} (hp : p ∈ glyphPlots font x y c) :
    x ≤ p.x ∧ p.x < x + 5 ∧ y ≤ p.y ∧ p.y < y + 8 := by
  by_cases hc : validChar c = true
  · obtain ⟨col, row, hcol, hrow, rfl⟩ := (mem_glyphPlots hc).mp hp
    refine ⟨?_, ?_, ?_, ?_⟩ <;> dsimp only <;> omega
  · rw [glyphPlots_invalid hc] at hp
    cases hp

/-- Whatever codes a string reads, its plots lie in the 5 by 8 boxes of its characters, six columns apart (R186). -/
theorem stringWalk_in_cells {font : List Host.Cell} {codes : List Byte} {draw : Nat} {y : Int} {left sk : Nat}
    {cur : Int} {p : Plot} (hp : p ∈ stringWalk font codes draw y left sk cur) :
    cur ≤ p.x ∧ (p.x - cur) / 6 < left ∧ (p.x - cur) % 6 < 5 ∧ y ≤ p.y ∧ p.y < y + 8 := by
  induction left generalizing sk cur with
  | zero => cases hp
  | succ left ih =>
    rw [stringWalk] at hp
    split at hp
    · cases hp
    · rcases List.mem_append.mp hp with hfirst | hrest
      · have := glyphPlots_in_box hfirst
        omega
      · have hstep : ((cursorStep : Nat) : Int) = 6 := rfl
        have := ih hrest
        omega

/-- Settles O41: the plots are in the cells, so every other pixel stays. -/
theorem stringCellsOnly : Obligations.StringCellsOnly := by
  intro x y n codes s ho hwf
  refine ⟨_, congrArg Host.Outcome.next (State.whenOperational_true ho _), rfl, fun px py hx hy hout => ?_,
    fun a ha => read_plotAll_outside hwf _ ha⟩
  refine pixelAt_plotAll_of_not_mem hwf _ hx hy fun p hp ⟨hpx, hpy⟩ => hout ?_
  rw [← hpx, ← hpy]
  exact stringWalk_in_cells hp

/-! ### `FB` stays in `FB` -/

/-- What `f` does to the rest of the state does not depend on `FB`. -/
def KeepsFbInside (f : State → State) : Prop :=
  ∀ s m, f { s with fb := m } = { f s with fb := (f { s with fb := m }).fb }

/-- A guard that does not read `FB` chooses the same branch whatever it holds. -/
theorem KeepsFbInside.ite {p : State → Prop} [DecidablePred p] {f g : State → State}
    (hp : ∀ s m, p { s with fb := m } ↔ p s) (hf : KeepsFbInside f) (hg : KeepsFbInside g) :
    KeepsFbInside fun s => if p s then f s else g s := by
  intro s m
  simp only [hp]
  split
  · exact hf s m
  · exact hg s m

theorem keepsFbInside_id : KeepsFbInside id := fun _ _ => rfl

theorem KeepsFbInside.whenOperational {f : State → State} (hf : KeepsFbInside f) :
    KeepsFbInside fun s => s.whenOperational f :=
  .ite (fun _ _ => Iff.rfl) hf keepsFbInside_id

/-- Neither the guard of `send_command` nor any command's bytes read `FB` (R148). -/
theorem keepsFbInside_sendCommand (c : Command) : KeepsFbInside fun s => s.sendCommand c := by
  refine KeepsFbInside.ite (p := fun s => acceptsCommands s.ds = true) (fun _ _ => Iff.rfl) ?_ keepsFbInside_id
  cases c <;> exact fun _ _ => rfl

/-- The events of `initialize` are the configuration's alone (R143). -/
theorem keepsFbInside_runInitialize : KeepsFbInside State.runInitialize := by
  intro s m
  rw [State.runInitialize_eq s, State.runInitialize_eq { s with fb := m }]
  rfl

/-- Settles O59: for each instruction but `flush`, neither its guard nor what it does outside `FB` reads `FB`. -/
theorem fbLeavesOnlyByFlush : Obligations.FbLeavesOnlyByFlush := by
  intro i s m hne
  have runs : ∀ f : State → State, exec i = (fun s => .next (f s)) → KeepsFbInside f →
      ∃ t u, exec i s = .next t ∧ exec i { s with fb := m } = .next u ∧ u = { t with fb := u.fb } :=
    fun f he hf => ⟨_, _, congrFun he _, congrFun he _, hf s m⟩
  cases i
  case flush => exact absurd rfl hne
  case opInitialize => exact runs _ rfl (.ite (fun _ _ => Iff.rfl) keepsFbInside_id keepsFbInside_runInitialize)
  case deinitialize => exact runs _ rfl (.ite (fun _ _ => Iff.rfl) keepsFbInside_id fun _ _ => rfl)
  case clear => exact runs _ rfl (.whenOperational fun _ _ => rfl)
  case setPixel => exact runs _ rfl (.whenOperational fun _ _ => rfl)
  case drawLine => exact runs _ rfl (.whenOperational fun _ _ => rfl)
  case drawCircle => exact runs _ rfl (.whenOperational fun _ _ => rfl)
  case drawBitmap => exact runs _ rfl (.whenOperational (.ite (fun _ _ => Iff.rfl) keepsFbInside_id fun _ _ => rfl))
  case drawChar => exact runs _ rfl (.whenOperational (.ite (fun _ _ => Iff.rfl) (fun _ _ => rfl) keepsFbInside_id))
  case drawString => exact runs _ rfl (.whenOperational fun _ _ => rfl)
  all_goals exact runs _ rfl (keepsFbInside_sendCommand _)

end Sys2Proof.Machine
end

section
/-! PROOFS. Encoding (30_encoding.md, 40_command_codec.md): the codec and the operation port are undone by their
decoders, and nothing but an encoding decodes (R83, R86 to R91, R93; layout of operands: log 3); a string as its first
character and the rest (R95, R186). -/

namespace Sys2Proof

/-! ### Bit fields of a byte -/

/-- The bits from `k` up and the low `k` bits make the whole byte. -/
theorem highBits_or_lowBits (b : Byte) (k : Nat) :
    (b &&& BitVec.allOnes 8 <<< k) ||| (b.extractLsb' 0 k).setWidth 8 = b := by
  refine BitVec.eq_of_getLsbD_eq fun i hi => ?_
  have hs : i - k < 8 := by omega
  simp only [BitVec.getLsbD_or, BitVec.getLsbD_and, BitVec.getLsbD_shiftLeft, BitVec.getLsbD_allOnes,
    BitVec.getLsbD_setWidth, BitVec.getLsbD_extractLsb', hi, hs, Nat.zero_add]
  by_cases h : i < k <;> simp [h]

/-- A byte that matches `v` under the mask of its high bits is `v` with its own low bits filled in. -/
theorem value_or_lowBits {b mask v : Byte} (k : Nat) (hm : mask = BitVec.allOnes 8 <<< k) (h : b &&& mask = v) :
    v ||| (b.extractLsb' 0 k).setWidth 8 = b := by
  rw [← h, hm]; exact highBits_or_lowBits b k

/-- The scan direction is bit 3 of its byte, between fixed bits (R122). -/
theorem scan_or_bit3 {b : Byte} (h : b &&& 0xF7 = opcScan) :
    opcScan ||| (b.extractLsb' 3 1).setWidth 8 <<< 3 = b := by
  rw [← h]
  refine BitVec.eq_of_getLsbD_eq fun i hi => ?_
  interval_cases i <;> simp

/-- A byte with bit 7 clear is its low seven bits. -/
theorem lowSeven_setWidth {p : Byte} (h : p &&& 0x80 = 0) : (p.extractLsb' 0 7).setWidth 8 = p :=
  (BitVec.zero_or).symm.trans (value_or_lowBits 7 rfl h)

theorem setWidth_and_bit7 (m : BitVec 7) : m.setWidth 8 &&& 0x80 = (0 : Byte) := by
  revert m; decide

theorem extractLsb'_setWidth_seven (m : BitVec 7) : (m.setWidth 8).extractLsb' 0 7 = m := by
  refine BitVec.eq_of_getLsbD_eq fun i hi => ?_
  have h8 : i < 8 := by omega
  simp [hi, h8]

/-! ### Commands -/

/-- A seven-bit parameter is read back, and nothing else is accepted (R87). -/
theorem decodeSeven_setWidth (b : Byte) (m : BitVec 7) (mk : BitVec 7 → Command) :
    decodeSeven b (m.setWidth 8) mk = .ok (mk m) := by
  rw [decodeSeven, if_pos (setWidth_and_bit7 m), extractLsb'_setWidth_seven]

theorem eq_of_decodeSeven {b p : Byte} {mk : BitVec 7 → Command} {c : Command} (h : decodeSeven b p mk = .ok c) :
    ∃ m, c = mk m ∧ p = m.setWidth 8 := by
  obtain ⟨hp, ⟨⟩⟩ | ⟨-, ⟨⟩⟩ := ite_eq_iff.mp h
  exact ⟨_, rfl, (lowSeven_setWidth hp).symm⟩

/-- Byte 0 of a command tells its length and which decoder gives it back (R82, R88). -/
theorem encodeCommand_cases {c : Command} (hc : c ≠ .readId) :
    (∃ b, encodeCommand c = [b] ∧ isTwoByteOpcode b = false ∧ decodeOneByte b = .ok c) ∨
      ∃ b p, encodeCommand c = [b, p] ∧ isTwoByteOpcode b = true ∧ decodeTwoByte b p = .ok c := by
  cases c with
  | setColumnLow a => exact .inl ⟨_, rfl, by revert a; decide⟩
  | setColumnHigh a => exact .inl ⟨_, rfl, by revert a; decide⟩
  | setPageAddress p => exact .inl ⟨_, rfl, by revert p; decide⟩
  | setContrast v => exact .inr ⟨_, _, rfl, rfl, rfl⟩
  | setMultiplexRatio m => exact .inr ⟨_, _, rfl, rfl, decodeSeven_setWidth opcMux m _⟩
  | setDisplayOffset o => exact .inr ⟨_, _, rfl, rfl, decodeSeven_setWidth opcOffset o _⟩
  | setClockDivide d => exact .inr ⟨_, _, rfl, rfl, rfl⟩
  | setChargePeriod c => exact .inr ⟨_, _, rfl, rfl, rfl⟩
  | setVcomLevel v => exact .inr ⟨_, _, rfl, rfl, rfl⟩
  | setDisplayStartLine l => exact .inr ⟨_, _, rfl, rfl, decodeSeven_setWidth opcStartLine l _⟩
  | setSegmentRemap r => exact .inl ⟨_, rfl, by revert r; decide⟩
  | setScanDirection d => exact .inl ⟨_, rfl, by revert d; decide⟩
  | entireDisplay e => exact .inl ⟨_, rfl, by revert e; decide⟩
  | normalReverse r => exact .inl ⟨_, rfl, by revert r; decide⟩
  | displayOnOff o => exact .inl ⟨_, rfl, by revert o; decide⟩
  | readModifyWrite => exact .inl ⟨_, rfl, by decide⟩
  | endCmd => exact .inl ⟨_, rfl, by decide⟩
  | nop => exact .inl ⟨_, rfl, by decide⟩
  | readId => exact absurd rfl hc
  | setDcDc s => exact .inr ⟨_, _, rfl, rfl, by revert s; decide⟩

/-- Each arm of the one-byte decoder accepts only the byte of the command it answers (R86). -/
theorem encodeCommand_of_decodeOneByte {b : Byte} {c : Command} (h : decodeOneByte b = .ok c) :
    encodeCommand c = [b] := by
  unfold decodeOneByte at h
  obtain ⟨hb, ⟨⟩⟩ | ⟨-, h⟩ := ite_eq_iff.mp h
  · exact congrArg ([·]) (value_or_lowBits 4 rfl hb)
  obtain ⟨hb, ⟨⟩⟩ | ⟨-, h⟩ := ite_eq_iff.mp h
  · exact congrArg ([·]) (value_or_lowBits 3 rfl hb)
  obtain ⟨hb, ⟨⟩⟩ | ⟨-, h⟩ := ite_eq_iff.mp h
  · exact congrArg ([·]) (value_or_lowBits 4 rfl hb)
  obtain ⟨hb, ⟨⟩⟩ | ⟨-, h⟩ := ite_eq_iff.mp h
  · exact congrArg ([·]) (value_or_lowBits 1 rfl hb)
  obtain ⟨hb, ⟨⟩⟩ | ⟨-, h⟩ := ite_eq_iff.mp h
  · exact congrArg ([·]) (scan_or_bit3 hb)
  obtain ⟨hb, ⟨⟩⟩ | ⟨-, h⟩ := ite_eq_iff.mp h
  · exact congrArg ([·]) (value_or_lowBits 1 rfl hb)
  obtain ⟨hb, ⟨⟩⟩ | ⟨-, h⟩ := ite_eq_iff.mp h
  · exact congrArg ([·]) (value_or_lowBits 1 rfl hb)
  obtain ⟨hb, ⟨⟩⟩ | ⟨-, h⟩ := ite_eq_iff.mp h
  · exact congrArg ([·]) (value_or_lowBits 1 rfl hb)
  obtain ⟨rfl, ⟨⟩⟩ | ⟨-, h⟩ := ite_eq_iff.mp h
  · rfl
  obtain ⟨rfl, ⟨⟩⟩ | ⟨-, h⟩ := ite_eq_iff.mp h
  · rfl
  obtain ⟨rfl, ⟨⟩⟩ | ⟨-, ⟨⟩⟩ := ite_eq_iff.mp h
  rfl

/-- Each arm of the two-byte decoder accepts only the bytes of the command it answers: no parameter is masked (R87). -/
theorem encodeCommand_of_decodeTwoByte {b p : Byte} {c : Command} (h : decodeTwoByte b p = .ok c) :
    encodeCommand c = [b, p] := by
  unfold decodeTwoByte at h
  obtain ⟨rfl, ⟨⟩⟩ | ⟨-, h⟩ := ite_eq_iff.mp h
  · rfl
  obtain ⟨rfl, h⟩ | ⟨-, h⟩ := ite_eq_iff.mp h
  · obtain ⟨m, rfl, rfl⟩ := eq_of_decodeSeven h; rfl
  obtain ⟨rfl, h⟩ | ⟨-, h⟩ := ite_eq_iff.mp h
  · obtain ⟨m, rfl, rfl⟩ := eq_of_decodeSeven h; rfl
  obtain ⟨rfl, ⟨⟩⟩ | ⟨-, h⟩ := ite_eq_iff.mp h
  · rfl
  obtain ⟨rfl, ⟨⟩⟩ | ⟨-, h⟩ := ite_eq_iff.mp h
  · rfl
  obtain ⟨rfl, ⟨⟩⟩ | ⟨-, h⟩ := ite_eq_iff.mp h
  · rfl
  obtain ⟨rfl, h⟩ | ⟨-, h⟩ := ite_eq_iff.mp h
  · obtain ⟨m, rfl, rfl⟩ := eq_of_decodeSeven h; rfl
  obtain ⟨rfl, h⟩ | ⟨-, ⟨⟩⟩ := ite_eq_iff.mp h
  obtain ⟨hp, ⟨⟩⟩ | ⟨-, ⟨⟩⟩ := ite_eq_iff.mp h
  exact congrArg ([opcDcdc, ·]) (value_or_lowBits 4 rfl hp)

/-- The bytes of a command decode to it. -/
theorem decodeCommand_encodeCommand (c : Command) : decodeCommand (encodeCommand c) = .ok c := by
  by_cases hc : c = .readId
  · rw [hc]; rfl
  · obtain ⟨b, he, hb, hd⟩ | ⟨b, p, he, hb, hd⟩ := encodeCommand_cases hc
    · rw [he]; simp [decodeCommand, hb, hd]
    · rw [he]; simp [decodeCommand, hb, hd]

/-- Only the bytes of a command decode to it (R86, R87). -/
theorem encodeCommand_of_decodeCommand {bs : List Byte} {c : Command} (h : decodeCommand bs = .ok c) :
    encodeCommand c = bs := by
  match bs with
  | [] => cases h; rfl
  | [b] =>
    obtain ⟨-, ⟨⟩⟩ | ⟨-, h⟩ := ite_eq_iff.mp h
    exact encodeCommand_of_decodeOneByte h
  | [b, p] =>
    obtain ⟨-, h⟩ | ⟨-, h⟩ := ite_eq_iff.mp h
    · exact encodeCommand_of_decodeTwoByte h
    · split at h <;> cases h
  | _ :: _ :: _ :: _ => cases h

/-- Settles O3: the decoder is a left inverse of the codec. -/
theorem commandEncodingInjective : Obligations.CommandEncodingInjective := by
  intro c d _ _ h
  have hd : decodeCommand (encodeCommand c) = .ok d := h ▸ decodeCommand_encodeCommand d
  exact Decoded.ok.inj ((decodeCommand_encodeCommand c).symm.trans hd)

/-- Settles O4, one variant after the other. -/
theorem commandLengths : Obligations.CommandLengths :=
  ⟨fun _ => rfl, fun _ => rfl, fun _ => rfl, fun _ => rfl, fun _ => rfl, fun _ => rfl, fun _ => rfl, fun _ => rfl,
    rfl, rfl, rfl, fun _ => rfl, fun _ => rfl, fun _ => rfl, fun _ => rfl, fun _ => rfl, fun _ => rfl, fun _ => rfl,
    fun _ => rfl, rfl⟩

/-- The stream decoder reads one command off the front (R82, R88). -/
theorem decodeStream_encodeCommand_append {c : Command} (hc : c ≠ .readId) {rest : List Byte} {cs : List Command}
    (h : decodeStream rest = .ok cs) : decodeStream (encodeCommand c ++ rest) = .ok (c :: cs) := by
  obtain ⟨b, he, hb, hd⟩ | ⟨b, p, he, hb, hd⟩ := encodeCommand_cases hc
  · rw [he]
    cases rest with
    | nil => cases h; simp [decodeStream, decodeCommand, hb, hd]
    | cons q qs => simp [decodeStream, hb, hd, h]
  · rw [he]; simp [decodeStream, hb, hd, h]

/-- Settles O6, by induction on the commands. -/
theorem commandStreamDecodes : Obligations.CommandStreamDecodes := by
  intro cs hcs
  induction cs with
  | nil => rfl
  | cons c cs ih =>
    obtain ⟨hc, hcs⟩ := not_or.mp (mt List.mem_cons.mpr hcs)
    exact decodeStream_encodeCommand_append (Ne.symm hc) (ih hcs)

/-! ### Byte 0 of a command (R86) -/

/-- A decoder's answer is a value, not a reason. -/
def Decoded.isOk {α : Type} : Decoded α → Bool
  | .ok _ => true
  | .error _ => false

theorem Decoded.isOk_iff {α : Type} {d : Decoded α} : d.isOk = true ↔ ∃ a, d = .ok a := by
  cases d with
  | ok a => exact ⟨fun _ => ⟨a, rfl⟩, fun _ => rfl⟩
  | error e => exact ⟨nofun, nofun⟩

/-- Each of the eight opcodes with a parameter byte begins some command. -/
theorem exists_encodeCommand_of_isTwoByteOpcode {b : Byte} (hb : isTwoByteOpcode b = true) :
    ∃ c rest, encodeCommand c = b :: rest := by
  simp only [isTwoByteOpcode, Bool.or_eq_true, beq_iff_eq] at hb
  obtain ((((((rfl | rfl) | rfl) | rfl) | rfl) | rfl) | rfl) | rfl := hb
  · exact ⟨.setContrast 0, _, rfl⟩
  · exact ⟨.setMultiplexRatio 0, _, rfl⟩
  · exact ⟨.setDisplayOffset 0, _, rfl⟩
  · exact ⟨.setClockDivide 0, _, rfl⟩
  · exact ⟨.setChargePeriod 0, _, rfl⟩
  · exact ⟨.setVcomLevel 0, _, rfl⟩
  · exact ⟨.setDisplayStartLine 0, _, rfl⟩
  · exact ⟨.setDcDc 0, _, rfl⟩

/-- Byte 0 of a command is what the decoder takes for one. -/
theorem exists_encodeCommand_eq_cons_iff {b : Byte} :
    (∃ c rest, encodeCommand c = b :: rest) ↔ (isTwoByteOpcode b || (decodeOneByte b).isOk) = true := by
  rw [Bool.or_eq_true, Decoded.isOk_iff]
  constructor
  · rintro ⟨c, rest, he⟩
    have hc : c ≠ .readId := fun hr => by subst hr; cases he
    obtain ⟨b', he', -, hd⟩ | ⟨b', p, he', hb, -⟩ := encodeCommand_cases hc
    · rw [he] at he'; cases he'; exact .inr ⟨c, hd⟩
    · rw [he] at he'; cases he'; exact .inl hb
  · rintro (hb | ⟨c, hd⟩)
    · exact exists_encodeCommand_of_isTwoByteOpcode hb
    · exact ⟨c, [], encodeCommand_of_decodeOneByte hd⟩

/-- The list of R86 is what the decoder refuses as byte 0. -/
theorem neverEmitted_eq_not_accepted :
    ∀ b : Byte, neverEmitted b.toNat = !(isTwoByteOpcode b || (decodeOneByte b).isOk) := by
  decide

/-- The list of R86 has 195 members, counted in sixteen rows of sixteen. -/
theorem countP_neverEmitted : (List.range 256).countP neverEmitted = 195 := by
  have hrows : List.range 256 = (List.range 16).flatMap fun p => (List.range 16).map fun c => 16 * p + c :=
    ((Machine.flatMap_rows id 16 16).trans (List.map_id _)).symm
  rw [hrows, List.countP_flatMap]
  decide

/-- Settles O5: byte 0 is what the decoder accepts as one, and the list is the rest. -/
theorem commandFirstBytes : Obligations.CommandFirstBytes := by
  refine ⟨fun b => ?_, countP_neverEmitted⟩
  rw [exists_encodeCommand_eq_cons_iff, neverEmitted_eq_not_accepted, Bool.not_eq_false']

/-! ### Operand fields (R93, log 3) -/

theorem coordOfBytes_extractLsb' (v : Coord) : coordOfBytes (v.extractLsb' 8 8) (v.extractLsb' 0 8) = v :=
  (BitVec.extractLsb'_append_extractLsb'_eq_extractLsb' (start₁ := 0) rfl).trans BitVec.extractLsb'_eq_self

theorem bytesOfCoord_coordOfBytes (hi lo : Byte) : bytesOfCoord (coordOfBytes hi lo) = [hi, lo] := by
  have hhi : (coordOfBytes hi lo).extractLsb' 8 8 = hi := BitVec.extractLsb'_append_eq_left
  have hlo : (coordOfBytes hi lo).extractLsb' 0 8 = lo := BitVec.extractLsb'_append_eq_right
  rw [bytesOfCoord, hhi, hlo]

theorem lengthOfBytes_eq (a b c d : Byte) :
    lengthOfBytes a b c d = ((a.toNat * 256 + b.toNat) * 256 + c.toNat) * 256 + d.toNat := by
  have push (m : Nat) (v : Byte) : m <<< 8 ||| v.toNat = m * 256 + v.toNat := by
    rw [← Nat.shiftLeft_add_eq_or_of_lt v.isLt, Nat.shiftLeft_eq]
  simp only [lengthOfBytes, BitVec.toNat_append, push]

theorem lengthOfBytes_lt (a b c d : Byte) : lengthOfBytes a b c d < 2 ^ 32 := BitVec.isLt _

theorem lengthOfBytes_bytesOfLength {n : Nat} (h : n < 2 ^ 32) :
    lengthOfBytes (BitVec.ofNat 8 (n / 2 ^ 24)) (BitVec.ofNat 8 (n / 2 ^ 16)) (BitVec.ofNat 8 (n / 2 ^ 8))
      (BitVec.ofNat 8 n) = n := by
  simp only [lengthOfBytes_eq, BitVec.toNat_ofNat]
  omega

theorem bytesOfLength_lengthOfBytes (a b c d : Byte) : bytesOfLength (lengthOfBytes a b c d) = [a, b, c, d] := by
  have ha := a.isLt
  have hb := b.isLt
  have hc := c.isLt
  have hd := d.isLt
  have hdigit (n : Nat) (v : Byte) (hn : n % 256 = v.toNat) : BitVec.ofNat 8 n = v := BitVec.eq_of_toNat_eq hn
  rw [bytesOfLength, lengthOfBytes_eq, hdigit _ a (by omega), hdigit _ b (by omega), hdigit _ c (by omega),
    hdigit _ d (by omega)]

theorem decodeBit_byteOfBit (on : Bool) (mk : Bool → Instr) : decodeBit (byteOfBit on) mk = .ok (mk on) := by
  cases on <;> rfl

theorem eq_of_decodeBit {b : Byte} {mk : Bool → Instr} {i : Instr} (h : decodeBit b mk = .ok i) :
    ∃ on, i = mk on ∧ b = byteOfBit on := by
  obtain ⟨rfl, ⟨⟩⟩ | ⟨-, h⟩ := ite_eq_iff.mp h
  · exact ⟨false, rfl, rfl⟩
  obtain ⟨rfl, ⟨⟩⟩ | ⟨-, ⟨⟩⟩ := ite_eq_iff.mp h
  exact ⟨true, rfl, rfl⟩

/-! ### Operations (R90, log 3) -/

/-- Where no operand is taken, none may follow `OPSEL`. -/
theorem encode_of_decodeBare {args : List Byte} {i j : Instr} {op : Byte} (he : encode j = ⟨.operation, [op]⟩)
    (hw : WellFormed j = true) (h : decodeBare args j = .ok i) :
    encode i = ⟨.operation, op :: args⟩ ∧ WellFormed i = true := by
  cases args with
  | nil => cases h; exact ⟨he, hw⟩
  | cons => cases h

theorem encode_of_decodeSetPixel {args : List Byte} {i : Instr} (h : decodeSetPixel args = .ok i) :
    encode i = ⟨.operation, 4 :: args⟩ ∧ WellFormed i = true := by
  unfold decodeSetPixel at h
  split at h
  · obtain ⟨on, rfl, rfl⟩ := eq_of_decodeBit h
    simp [encode, bytesOfCoord_coordOfBytes, WellFormed]
  · cases h

theorem encode_of_decodeDrawLine {args : List Byte} {i : Instr} (h : decodeDrawLine args = .ok i) :
    encode i = ⟨.operation, 5 :: args⟩ ∧ WellFormed i = true := by
  unfold decodeDrawLine at h
  split at h
  · obtain ⟨on, rfl, rfl⟩ := eq_of_decodeBit h
    simp [encode, bytesOfCoord_coordOfBytes, WellFormed]
  · cases h

theorem encode_of_decodeDrawCircle {args : List Byte} {i : Instr} (h : decodeDrawCircle args = .ok i) :
    encode i = ⟨.operation, 6 :: args⟩ ∧ WellFormed i = true := by
  unfold decodeDrawCircle at h
  split at h
  · obtain ⟨on, rfl, rfl⟩ := eq_of_decodeBit h
    simp [encode, bytesOfCoord_coordOfBytes, WellFormed]
  · cases h

theorem encode_of_decodeDrawBitmap {args : List Byte} {i : Instr} (h : decodeDrawBitmap args = .ok i) :
    encode i = ⟨.operation, 7 :: args⟩ ∧ WellFormed i = true := by
  unfold decodeDrawBitmap at h
  split at h
  · obtain ⟨on, rfl, rfl⟩ := eq_of_decodeBit h
    simp [encode, bytesOfCoord_coordOfBytes, WellFormed]
  · cases h

theorem encode_of_decodeDrawChar {args : List Byte} {i : Instr} (h : decodeDrawChar args = .ok i) :
    encode i = ⟨.operation, 8 :: args⟩ ∧ WellFormed i = true := by
  unfold decodeDrawChar at h
  split at h
  · cases h
    simp [encode, bytesOfCoord_coordOfBytes, WellFormed]
  · cases h

theorem encode_of_decodeDrawString {args : List Byte} {i : Instr} (h : decodeDrawString args = .ok i) :
    encode i = ⟨.operation, 9 :: args⟩ ∧ WellFormed i = true := by
  unfold decodeDrawString at h
  split at h
  · cases h
    refine ⟨?_, decide_eq_true (lengthOfBytes_lt ..)⟩
    simp [encode, bytesOfCoord_coordOfBytes, bytesOfLength_lengthOfBytes]
  · cases h

theorem encode_of_decodeSendCommand {args : List Byte} {i : Instr} (h : decodeSendCommand args = .ok i) :
    encode i = ⟨.operation, 10 :: args⟩ ∧ WellFormed i = true := by
  unfold decodeSendCommand at h
  split at h
  next c hc =>
    cases h
    rw [encode, encodeCommand_of_decodeCommand hc]
    exact ⟨rfl, rfl⟩
  next => cases h

/-- Only an operation's own bytes decode to it (R91). -/
theorem encode_of_decodeOperation {bytes : List Byte} {i : Instr} (h : decodeOperation bytes = .ok i) :
    encode i = ⟨.operation, bytes⟩ ∧ WellFormed i = true := by
  cases bytes with
  | nil => cases h
  | cons op args =>
    have opsel (k : Byte) (hop : op.toNat = k.toNat) : op = k := BitVec.eq_of_toNat_eq hop
    simp only [decodeOperation] at h
    split at h
    next hop => rw [opsel 0 hop]; exact encode_of_decodeBare rfl rfl h
    next hop => rw [opsel 1 hop]; exact encode_of_decodeBare rfl rfl h
    next hop => rw [opsel 2 hop]; exact encode_of_decodeBare rfl rfl h
    next hop => rw [opsel 3 hop]; exact encode_of_decodeBare rfl rfl h
    next hop => rw [opsel 4 hop]; exact encode_of_decodeSetPixel h
    next hop => rw [opsel 5 hop]; exact encode_of_decodeDrawLine h
    next hop => rw [opsel 6 hop]; exact encode_of_decodeDrawCircle h
    next hop => rw [opsel 7 hop]; exact encode_of_decodeDrawBitmap h
    next hop => rw [opsel 8 hop]; exact encode_of_decodeDrawChar h
    next hop => rw [opsel 9 hop]; exact encode_of_decodeDrawString h
    next hop => rw [opsel 10 hop]; exact encode_of_decodeSendCommand h
    next => cases h

/-- A command row is well formed, and its request is the bytes of its command (log 3). -/
theorem encode_ofCommand (c : Command) :
    encode (.ofCommand c) = ⟨.command, encodeCommand c⟩ ∧ WellFormed (.ofCommand c) = true := by
  cases c <;> exact ⟨rfl, rfl⟩

theorem decode_commandRequest (c : Command) : decode ⟨.command, encodeCommand c⟩ = .ok (.ofCommand c) := by
  simp only [decode, decodeCommand_encodeCommand]

/-- Settles O2, by the two kinds of request. -/
theorem encodeOfDecode : Obligations.EncodeOfDecode := by
  rintro ⟨kind, bytes⟩ i h
  cases kind with
  | operation => exact encode_of_decodeOperation h
  | command =>
    simp only [decode] at h
    split at h
    next c hc =>
      cases h
      rw [← encodeCommand_of_decodeCommand hc]
      exact encode_ofCommand c
    next => cases h

/-- Settles O1: the fields of an operation are read back one by one, and a command row by its command. -/
theorem decodeOfEncode : Obligations.DecodeOfEncode := by
  intro i hw
  cases i
  case opInitialize => rfl
  case deinitialize => rfl
  case clear => rfl
  case flush => rfl
  case setPixel x y on =>
    show decodeBit (byteOfBit on) (.setPixel (coordOfBytes _ _) (coordOfBytes _ _)) = _
    simp only [coordOfBytes_extractLsb', decodeBit_byteOfBit]
  case drawLine x0 y0 x1 y1 on =>
    show decodeBit (byteOfBit on)
      (.drawLine (coordOfBytes _ _) (coordOfBytes _ _) (coordOfBytes _ _) (coordOfBytes _ _)) = _
    simp only [coordOfBytes_extractLsb', decodeBit_byteOfBit]
  case drawCircle x0 y0 r on =>
    show decodeBit (byteOfBit on) (.drawCircle (coordOfBytes _ _) (coordOfBytes _ _) (coordOfBytes _ _)) = _
    simp only [coordOfBytes_extractLsb', decodeBit_byteOfBit]
  case drawBitmap x y w h bitmap on =>
    show decodeBit (byteOfBit on)
      (.drawBitmap (coordOfBytes _ _) (coordOfBytes _ _) (coordOfBytes _ _) (coordOfBytes _ _) bitmap) = _
    simp only [coordOfBytes_extractLsb', decodeBit_byteOfBit]
  case drawChar x y c =>
    show Decoded.ok (Instr.drawChar (coordOfBytes _ _) (coordOfBytes _ _) c) = _
    simp only [coordOfBytes_extractLsb']
  case drawString x y n codes =>
    show Decoded.ok (Instr.drawString (coordOfBytes _ _) (coordOfBytes _ _) (lengthOfBytes _ _ _ _) codes) = _
    simp only [coordOfBytes_extractLsb', lengthOfBytes_bytesOfLength (of_decide_eq_true hw)]
  case sendCommand cmd =>
    show decodeSendCommand (encodeCommand cmd) = _
    simp only [decodeSendCommand, decodeCommand_encodeCommand]
  all_goals exact decode_commandRequest _

/-- What a well-formed instruction is encoded as decodes to it. -/
theorem decode_of_encode_eq {r : Request} {i : Instr} (hw : WellFormed i = true) (he : encode i = r) :
    decode r = .ok i := he ▸ decodeOfEncode i hw

/-- Settles O7: each word is the encoding of the instruction it stands for. -/
theorem knownWordsDecode : Obligations.KnownWordsDecode :=
  ⟨decode_of_encode_eq rfl (by decide), decode_of_encode_eq rfl (by decide), decode_of_encode_eq rfl (by decide),
    decode_of_encode_eq rfl (by decide), decode_of_encode_eq rfl (by decide), decode_of_encode_eq rfl (by decide),
    decode_of_encode_eq rfl (by decide), decode_of_encode_eq rfl (by decide)⟩

/-- `OPSEL` codes from 11 up name no operation (R91). -/
theorem decodeOperation_reserved {code : Byte} (args : List Byte) (h : 11 ≤ code.toNat) :
    decodeOperation (code :: args) = .error (.reservedOpsel code.toNat) := by
  simp only [decodeOperation]
  split
  on_goal 12 => rfl
  all_goals omega

/-- Settles O49: `step` hands on the decoder's reason. -/
theorem reservedOpselRefused : Obligations.ReservedOpselRefused := fun _ _ args _ hlo _ hp =>
  Machine.step_of_decode_error hp (decodeOperation_reserved args hlo)

end Sys2Proof

namespace Sys2Proof.Machine

/-! ### A string is its first character and the rest (R186) -/

/-- With all its codes in memory, a string from the second code on plots what the string of those codes does, whatever
the draw of the free bytes it never reads (R186, U6). -/
theorem stringWalk_cons (font : List Host.Cell) (c : Byte) (codes : List Byte) (draw draw' : Nat) (y : Int)
    (left sk : Nat) (cur : Int) (h : sk + left ≤ codes.length) :
    stringWalk font (c :: codes) draw y left (sk + 1) cur = stringWalk font codes draw' y left sk cur := by
  induction left generalizing sk cur with
  | zero => rfl
  | succ left ih =>
    have hsk : sk < codes.length := by omega
    have hread : strRead (c :: codes) draw (sk + 1) = strRead codes draw' sk := by
      simp [strRead, operandRead, hsk]
    simp only [stringWalk, hread]
    rw [ih]
    omega

/-- Past its guard `draw_char` plots the glyph, of which an invalid code has nothing, and keeps what a string after it
reads (R183, R184). -/
theorem execDrawChar_plots (x y : Coord) (c : Byte) {s : State} (ho : operational s.ds = true) :
    ∃ t, execDrawChar x y c s = .next t ∧ t.ds = s.ds ∧ t.font = s.font ∧
      t.fb = plotAll s.fb (glyphPlots s.font x.toInt y.toInt c) := by
  refine ⟨_, congrArg Host.Outcome.next (State.whenOperational_true ho _), ?_⟩
  split
  next => exact ⟨rfl, rfl, rfl⟩
  next hc => exact ⟨rfl, rfl, by rw [glyphPlots_invalid hc]; rfl⟩

/-- Moving the cursor by one character stays within 16 bits left of the right edge. -/
theorem toInt_add_cursorStep {x : Coord} (hx : x.toInt < 128) : (x + 6).toInt = x.toInt + cursorStep := by
  have hlo := x.le_toInt
  have h6 : (6 : Coord).toInt = 6 := rfl
  rw [BitVec.toInt_add, h6]
  exact Int.bmod_eq_of_le (by omega) (by omega)

/-- Settles O42: both sides plot the first glyph and then the walk of the remaining codes. -/
theorem stringIsCharThenRest : Obligations.StringIsCharThenRest := by
  intro x y c codes s ho hx
  obtain ⟨t, ht, hds, hfont, hfb⟩ := execDrawChar_plots x y c ho
  refine ⟨t, _, _, ht, congrArg Host.Outcome.next (State.whenOperational_true (hds ▸ ho) _),
    congrArg Host.Outcome.next (State.whenOperational_true ho _), ?_⟩
  have hcur : ¬x.toInt ≥ Config.width := by simpa [Config.width] using hx
  simp only [State.leaveText_fb, State.plot_fb, sext16_eq, hfont, hfb, toInt_add_cursorStep hx, ← plotAll_append]
  rw [stringWalk, if_neg hcur, stringWalk_cons (draw' := t.draws)]
  · rfl
  · omega

end Sys2Proof.Machine
end

section
/-! PROOFS. The codec's bytes and the command rows (40_command_codec.md): what each command is encoded as (R111 to R130),
and that a row sends just those bytes (R140, R148; rows as sends: log 4). -/

namespace Sys2Proof

/-! ### The bytes of a command (R111 to R130) -/

/-- Settles O8: a parameter stands in the low bits of its byte, but the scan direction in bit 3. -/
theorem oneByteEncodings : Obligations.OneByteEncodings := by
  have hscan (d : BitVec 1) : d.setWidth 8 <<< 3 = BitVec.ofNat 8 (d.toNat * 8) := by revert d; decide
  simp only [Obligations.OneByteEncodings, BitVec.ofNat_toNat, ← hscan]
  exact ⟨fun _ => rfl, fun _ => rfl, fun _ => rfl, fun _ => rfl, fun _ => rfl, fun _ => rfl, rfl, rfl⟩

/-- Settles O9: the opcode, then the parameter widened to a byte. -/
theorem twoByteEncodings : Obligations.TwoByteEncodings := by
  simp only [Obligations.TwoByteEncodings, BitVec.ofNat_toNat]
  exact ⟨fun _ => rfl, fun _ => rfl, fun _ => rfl, fun _ => rfl, fun _ => rfl, fun _ => rfl, fun _ => rfl,
    fun _ => rfl⟩

theorem encodeCommand_entireDisplay (e : BitVec 1) :
    encodeCommand (.entireDisplay e) = [0xA4#8 ||| BitVec.ofNat 8 e.toNat] := by
  rw [BitVec.ofNat_toNat]; rfl

end Sys2Proof

namespace Sys2Proof.Machine

/-! ### The command rows (R140, R148; log 4) -/

/-- A command row is its command being sent (log 4). -/
theorem exec_ofCommand (c : Command) (s : State) : exec (.ofCommand c) s = .next (s.sendCommand c) := by
  cases c <;> rfl

/-- Where commands are accepted, the row of a command that has bytes sends them, and `DS` moves as R148 says. -/
theorem exec_ofCommand_sends {s : State} {c : Command} {b : Byte} {bs : List Byte} (hs : acceptsCommands s.ds = true)
    (he : encodeCommand c = b :: bs) :
    exec (.ofCommand c) s = .next { s.afterSending (b :: bs) with ds := dsAfterCommand c s.ds } := by
  have hc : c ≠ .readId := mt encodeCommand_eq_nil.mpr (he ▸ List.cons_ne_nil b bs)
  rw [exec_ofCommand, State.sendCommand_eq s hs hc, he]

/-- The row of a command that does not move `DS` changes nothing but the trace and the mode. -/
theorem exec_ofCommand_only_sends {s : State} {c : Command} {b : Byte} {bs : List Byte}
    (hs : acceptsCommands s.ds = true) (he : encodeCommand c = b :: bs) (hds : dsAfterCommand c s.ds = s.ds) :
    exec (.ofCommand c) s = .next (s.afterSending (b :: bs)) := by
  rw [exec_ofCommand_sends hs he, hds]; rfl

/-- Settles O10: the three commands have the bytes of O8. -/
theorem addressCommandsSend : Obligations.AddressCommandsSend := by
  intro s hs
  obtain ⟨hcolLo, hcolHi, hpage, -⟩ := oneByteEncodings
  exact ⟨fun a => exec_ofCommand_only_sends hs (hcolLo a) rfl, fun a => exec_ofCommand_only_sends hs (hcolHi a) rfl,
    fun p => exec_ofCommand_only_sends hs (hpage p) rfl⟩

/-- Settles O11: the eight commands have the bytes of O9. -/
theorem settingCommandsSend : Obligations.SettingCommandsSend := by
  intro s hs
  obtain ⟨hcontrast, hmux, hoffset, hclock, hcharge, hvcom, hline, hdcdc⟩ := twoByteEncodings
  exact ⟨fun v => exec_ofCommand_only_sends hs (hcontrast v) rfl, fun m => exec_ofCommand_only_sends hs (hmux m) rfl,
    fun o => exec_ofCommand_only_sends hs (hoffset o) rfl, fun d => exec_ofCommand_only_sends hs (hclock d) rfl,
    fun c => exec_ofCommand_only_sends hs (hcharge c) rfl, fun v => exec_ofCommand_only_sends hs (hvcom v) rfl,
    fun l => exec_ofCommand_only_sends hs (hline l) rfl, fun v => exec_ofCommand_only_sends hs (hdcdc v) rfl⟩

/-- Settles O12: the bytes are those of O8, of `EntireDisplay` and of `Nop`. -/
theorem switchCommandsSend : Obligations.SwitchCommandsSend := by
  intro s hs
  obtain ⟨-, -, -, hremap, hscan, hreverse, hrmw, hend⟩ := oneByteEncodings
  have hnop : encodeCommand .nop = [0xE3] := rfl
  exact ⟨fun r => exec_ofCommand_only_sends hs (hremap r) rfl, fun d => exec_ofCommand_only_sends hs (hscan d) rfl,
    fun e => exec_ofCommand_only_sends hs (encodeCommand_entireDisplay e) rfl,
    fun r => exec_ofCommand_only_sends hs (hreverse r) rfl, exec_ofCommand_only_sends hs hrmw rfl,
    exec_ofCommand_only_sends hs hend rfl, exec_ofCommand_only_sends hs hnop rfl⟩

/-- Settles O13: the one command that moves `DS`, for each value of its bit. -/
theorem displayOnOffMovesDs : Obligations.DisplayOnOffMovesDs := by
  intro s hs
  have hon : encodeCommand (.displayOnOff 1) = [0xAF] := by decide
  have hoff : encodeCommand (.displayOnOff 0) = [0xAE] := by decide
  exact ⟨exec_ofCommand_sends hs hon, exec_ofCommand_sends hs hoff⟩

/-- Settles O14: the row and `send_command` both send `ReadId`, which changes nothing. -/
theorem readIdSilent : Obligations.ReadIdSilent := by
  refine ⟨encodeCommand_eq_nil.mpr rfl, fun s => ?_⟩
  have hsilent : (.next (s.sendCommand .readId) : Result) = .next s := congrArg _ s.sendCommand_readId
  exact ⟨hsilent, hsilent⟩

end Sys2Proof.Machine
end

section
/-! PROOFS. Device control (41_device_control.md): the state chart (R142), `initialize` (R143), `deinitialize` (R146)
and `send_command` (R148), with the command rows as sends (log 4). -/

namespace Sys2Proof.Machine

/-! ### `send_command` (R148) -/

theorem acceptsCommands_iff {d : DeviceState} :
    acceptsCommands d = true ↔ d = .ready ∨ d = .displaying ∨ d = .blanked := by
  cases d <;> decide

/-- Only the two values of `DisplayOnOff` move `DS` (R148). -/
theorem dsAfterCommand_eq_ite (c : Command) (d : DeviceState) :
    dsAfterCommand c d =
      if c = .displayOnOff 1 then .displaying else if c = .displayOnOff 0 then .blanked else d := by
  cases c
  case displayOnOff o =>
    obtain rfl | rfl := BitVec.eq_zero_or_eq_one o
    · rfl
    · rfl
  all_goals rfl

/-- Settles O15: the three branches of `send_command`, one lemma for each. -/
theorem sendCommandRuns : Obligations.SendCommandRuns := by
  intro c s
  refine congrArg Host.Outcome.next (?_ : s.sendCommand c = _)
  split
  next hs => exact s.sendCommand_ignored c (Bool.eq_false_of_not_eq_true (mt acceptsCommands_iff.mp hs))
  next hs =>
    split
    next hc => rw [hc, s.sendCommand_readId]
    next hc => rw [s.sendCommand_eq (acceptsCommands_iff.mpr (not_not.mp hs)) hc, dsAfterCommand_eq_ite]

/-- Settles O16: both are the command being sent. -/
theorem commandRowIsSendCommand : Obligations.CommandRowIsSendCommand := exec_ofCommand

/-- `DS` after `send_command`: it moves only where commands are accepted (R148). -/
theorem State.sendCommand_ds (s : State) (c : Command) :
    (s.sendCommand c).ds = if acceptsCommands s.ds then dsAfterCommand c s.ds else s.ds := by
  split
  next hs =>
    by_cases hc : c = .readId
    · rw [hc, s.sendCommand_readId]; rfl
    · rw [s.sendCommand_eq hs hc]
  next hs => rw [s.sendCommand_ignored c (Bool.eq_false_of_not_eq_true hs)]

/-! ### `initialize` (R143) -/

/-- The low four bits of the start column (R143). -/
theorem encodeCommand_columnLow (col : BitVec 7) :
    encodeCommand (.setColumnLow (columnLow col)) = [BitVec.ofNat 8 (col.toNat % 16)] := by
  revert col; decide

/-- The high three bits of the start column (R143). -/
theorem encodeCommand_columnHigh (col : BitVec 7) :
    encodeCommand (.setColumnHigh (columnHigh col)) = [0x10#8 ||| BitVec.ofNat 8 (col.toNat / 16)] := by
  revert col; decide

theorem exec_initialize {s : State} (h : s.ds ≠ .deinitialized) : exec .opInitialize s = .next s.runInitialize :=
  congrArg Host.Outcome.next (if_neg h)

theorem exec_initialize_deinitialized {s : State} (h : s.ds = .deinitialized) : exec .opInitialize s = .next s :=
  congrArg Host.Outcome.next (if_pos h)

/-- Settles O17: the closed form of `initialize` with the bytes of its thirteen commands. -/
theorem initializeRuns : Obligations.InitializeRuns := by
  refine fun s => ⟨fun h => ?_, exec_initialize_deinitialized⟩
  obtain ⟨-, -, hpage, -⟩ := oneByteEncodings
  obtain ⟨hcontrast, hmux, hoffset, hclock, hcharge, hvcom, hline, hdcdc⟩ := twoByteEncodings
  have hnormal : encodeCommand (.normalReverse initReverse) = [0xA6] := by decide
  have hon : encodeCommand (.displayOnOff 1) = [0xAF] := by decide
  rw [exec_initialize h, State.runInitialize_eq, List.append_assoc]
  simp only [initCommands, configureCommands, List.cons_append, List.nil_append, List.flatMap_cons, List.flatMap_nil,
    encodeCommand_columnLow, encodeCommand_columnHigh, hpage, hline, hcontrast, hnormal, hmux, hoffset, hclock, hcharge,
    hvcom, hdcdc, hon]

/-! ### `deinitialize` (R146) -/

/-- `deinitialize` past its guard: the reset pulse, display-off, `Deinitialized`. -/
theorem exec_deinitialize {s : State} (h : s.ds ≠ .deinitialized) :
    exec .deinitialize s = .next
      { s with ds := .deinitialized,
               trace := s.trace ++ (resetPulse ++ [.selCmd, .write [0xAE]]),
               pins := { mode := .command, resetLine := .released } } := by
  have hoff : encodeCommand (.displayOnOff 0) = [0xAE] := by decide
  have hwritten : encodeCommand (.displayOnOff 0) ≠ [] := hoff ▸ List.cons_ne_nil _ _
  refine congrArg Host.Outcome.next ((if_neg h).trans ?_)
  rw [State.emitCommand_eq _ hwritten, hoff, State.resetSequence_eq, ← List.append_assoc]
  rfl

theorem exec_deinitialize_deinitialized {s : State} (h : s.ds = .deinitialized) : exec .deinitialize s = .next s :=
  congrArg Host.Outcome.next (if_pos h)

/-- Settles O18, one lemma for each branch of the guard. -/
theorem deinitializeRuns : Obligations.DeinitializeRuns :=
  fun _ => ⟨exec_deinitialize, exec_deinitialize_deinitialized⟩

/-! ### `Deinitialized` is final (R142) -/

theorem exec_runs (i : Instr) (s : State) : Runs (exec i s) := by
  cases i <;> exact ⟨_, rfl⟩

/-- Settles O19: what draws is in an operational state, and what emits is not in `Deinitialized`. -/
theorem deinitializedIsFinal : Obligations.DeinitializedIsFinal := by
  intro i s hd
  obtain ⟨t, ht⟩ := exec_runs i s
  obtain rfl | ⟨-, -, ho, -⟩ | ⟨hne, -⟩ := exec_cases ht
  · exact ht
  · rw [hd] at ho; cases ho
  · exact absurd hd hne

/-! ### Framebuffer operations behind their guard (R164) -/

theorem exec_framebufferOp {i : Instr} (hf : i.isFramebufferOp = true) :
    ∃ f : State → State, ∀ s, exec i s = .next (s.whenOperational f) := by
  cases i
  case clear | flush | setPixel | drawLine | drawCircle | drawBitmap | drawChar | drawString => exact ⟨_, fun _ => rfl⟩
  all_goals cases hf

theorem exec_framebufferOp_guarded {i : Instr} {s : State} (hf : i.isFramebufferOp = true)
    (ho : operational s.ds = false) : exec i s = .next s := by
  obtain ⟨f, he⟩ := exec_framebufferOp hf
  rw [he, State.whenOperational_false ho]

/-- Neither `flush` nor drawing moves `DS` (R20, R34). -/
theorem exec_framebufferOp_keeps_ds {i : Instr} {s t : State} (hf : i.isFramebufferOp = true)
    (h : exec i s = .next t) : t.ds = s.ds := by
  by_cases hi : i = .flush
  · exact exec_flush_keeps_ds (hi ▸ h)
  · obtain ⟨-, -, hds⟩ := exec_draws_keepsDevice (draws_iff.mpr ⟨hf, hi⟩) h
    exact hds

/-! ### The columns of the chart (R142) -/

theorem chartNext_framebufferOp {i : Instr} (hf : i.isFramebufferOp = true) (d : DeviceState) : chartNext d i = d := by
  cases i
  case clear | flush | setPixel | drawLine | drawCircle | drawBitmap | drawChar | drawString => cases d <;> rfl
  all_goals cases hf

theorem chartNext_initialize {d : DeviceState} (hd : d ≠ .deinitialized) : chartNext d .opInitialize = .displaying := by
  cases d
  case deinitialized => exact absurd rfl hd
  all_goals rfl

theorem chartNext_deinitialize (d : DeviceState) : chartNext d .deinitialize = .deinitialized := by
  cases d <;> rfl

/-- The `send_command` columns: `DS` moves where commands are accepted, as the command moves it (R148). -/
theorem chartNext_sendCommand {d : DeviceState} (hs : stable d = true) (c : Command) :
    chartNext d (.sendCommand c) = if acceptsCommands d then dsAfterCommand c d else d := by
  cases d
  case displaying => cases c <;> rfl
  case blanked => cases c <;> rfl
  case uninitialized => rfl
  case deinitialized => rfl
  all_goals cases hs

/-- A command row stands in the columns of `send_command` (log 4). -/
theorem chartNext_ofCommand (d : DeviceState) (c : Command) :
    chartNext d (.ofCommand c) = chartNext d (.sendCommand c) := by
  cases c <;> cases d <;> rfl

/-! ### The cells that say "no-op" (R142) -/

/-- Such a cell lies in a state in which no framebuffer operation runs (R164). -/
theorem operational_of_chartNoOp {d : DeviceState} {i : Instr} (h : chartNoOp d i = true) : operational d = false := by
  cases d
  case displaying | ready | configuring | resetting => cases h
  all_goals rfl

/-- Such a cell outside the columns of the framebuffer operations lies in a state that accepts no command (R148). -/
theorem acceptsCommands_of_chartNoOp {d : DeviceState} {i : Instr} (hf : i.isFramebufferOp = false)
    (h : chartNoOp d i = true) : acceptsCommands d = false := by
  cases d
  case displaying | ready | configuring | resetting => cases h
  case blanked => exact absurd (hf.symm.trans h) Bool.false_ne_true
  all_goals rfl

/-- No such cell in the columns of `initialize` and `deinitialize` but in `Deinitialized`. -/
theorem chartNoOp_reset {d : DeviceState} (hd : d ≠ .deinitialized) :
    ¬chartNoOp d .opInitialize = true ∧ ¬chartNoOp d .deinitialize = true := by
  cases d
  case deinitialized => exact absurd rfl hd
  all_goals exact ⟨nofun, nofun⟩

/-! ### Each kind of instruction in the chart -/

/-- `i` answers the next state of R142's chart from `s`, and is silent in a cell that says "no-op". -/
def FollowsChart (i : Instr) (s : State) : Prop :=
  ∃ t, exec i s = .next t ∧ t.ds = chartNext s.ds i ∧ (chartNoOp s.ds i = true → t = s)

theorem followsChart_of_deinitialized (i : Instr) {s : State} (hd : s.ds = .deinitialized) : FollowsChart i s :=
  ⟨s, deinitializedIsFinal i s hd, by rw [hd]; rfl, fun _ => rfl⟩

theorem followsChart_framebufferOp {i : Instr} (hf : i.isFramebufferOp = true) (s : State) : FollowsChart i s := by
  obtain ⟨t, ht⟩ := exec_runs i s
  refine ⟨t, ht, (exec_framebufferOp_keeps_ds hf ht).trans (chartNext_framebufferOp hf s.ds).symm, fun hno => ?_⟩
  have hguard := exec_framebufferOp_guarded hf (operational_of_chartNoOp hno)
  cases ht.symm.trans hguard
  rfl

/-- What sends a command, and stands in the chart where `send_command` does. -/
theorem followsChart_of_sends {i : Instr} {s : State} {c : Command} (hs : stable s.ds = true)
    (hi : exec i s = .next (s.sendCommand c)) (hf : i.isFramebufferOp = false)
    (hnext : chartNext s.ds i = chartNext s.ds (.sendCommand c)) : FollowsChart i s :=
  ⟨_, hi, by rw [s.sendCommand_ds, hnext, chartNext_sendCommand hs],
    fun hno => s.sendCommand_ignored c (acceptsCommands_of_chartNoOp hf hno)⟩

/-- The row's own equation `hi` names the command it stands for (log 4). -/
theorem followsChart_ofCommand {i : Instr} {s : State} {c : Command} (hs : stable s.ds = true)
    (hi : exec i s = .next (s.sendCommand c)) (hc : i = .ofCommand c) : FollowsChart i s := by
  have hf : (Instr.ofCommand c).isFramebufferOp = false := by cases c <;> rfl
  subst hc
  exact followsChart_of_sends hs hi hf (chartNext_ofCommand s.ds c)

theorem followsChart_initialize {s : State} (hd : s.ds ≠ .deinitialized) : FollowsChart .opInitialize s :=
  ⟨_, exec_initialize hd, by rw [State.runInitialize_eq, chartNext_initialize hd],
    fun hno => absurd hno (chartNoOp_reset hd).left⟩

theorem followsChart_deinitialize {s : State} (hd : s.ds ≠ .deinitialized) : FollowsChart .deinitialize s :=
  ⟨_, exec_deinitialize hd, (chartNext_deinitialize s.ds).symm, fun hno => absurd hno (chartNoOp_reset hd).right⟩

/-- Settles O20: `Deinitialized` is final, and in the other states each kind of instruction follows its column. -/
theorem stateChart : Obligations.StateChart := by
  intro i s hs
  by_cases hd : s.ds = .deinitialized
  · exact followsChart_of_deinitialized i hd
  cases i
  case opInitialize => exact followsChart_initialize hd
  case deinitialize => exact followsChart_deinitialize hd
  case sendCommand => exact followsChart_of_sends hs rfl rfl rfl
  case clear | flush | setPixel | drawLine | drawCircle | drawBitmap | drawChar | drawString =>
    exact followsChart_framebufferOp rfl s
  all_goals exact followsChart_ofCommand hs rfl rfl

end Sys2Proof.Machine
end

section
/-! PROOFS. `clear` and `set_pixel` (42_framebuffer_ops.md): the guard of the framebuffer operations (R164), the one bit
that `set_pixel` writes (R161 to R163), and `clear` (R160). -/

namespace Sys2Proof.Machine

/-! ### The guard (R164) -/

theorem operational_iff {d : DeviceState} : operational d = true ↔ d = .ready ∨ d = .displaying := by
  cases d <;> decide

/-- Settles O21: `Ready` and `Displaying` are the only states in which the guard lets an operation run. -/
theorem guardSilent : Obligations.GuardSilent := fun _ _ hf hready hdisplaying =>
  exec_framebufferOp_guarded hf (Bool.eq_false_of_not_eq_true (mt operational_iff.mp (not_or.mpr ⟨hready, hdisplaying⟩)))

/-! ### `set_pixel` (R161 to R163) -/

/-- `set_pixel` past its guard: `SetPixel` on `FB`, at its operands sign-extended (R162). -/
theorem exec_setPixel (x y : Coord) (on : Bool) {s : State} (ho : operational s.ds = true) :
    exec (.setPixel x y on) s = .next { s with fb := setPixel s.fb x.toInt y.toInt on } :=
  congrArg Host.Outcome.next (State.whenOperational_true ho _)

theorem exec_setPixel_guarded (x y : Coord) (on : Bool) {s : State} (ho : operational s.ds = false) :
    exec (.setPixel x y on) s = .next s :=
  exec_framebufferOp_guarded rfl ho

/-- The address of the pixel primitive, in integers as R161 computes it. -/
theorem addressed_iff {x y : Int} {a : Nat} :
    (inBounds x y = true ∧ a = fbAddr x.toNat y.toNat) ↔
      0 ≤ x ∧ x < 128 ∧ 0 ≤ y ∧ y < 128 ∧ (a : Int) = y / 8 * 128 + x := by
  simp only [inBounds_iff, fbAddr, Config.width]
  omega

/-- Settles O22: what a byte reads after `SetPixel`, with its address in integers. -/
theorem setPixelWrites : Obligations.SetPixelWrites := by
  refine fun x y on s ho hw => ⟨_, exec_setPixel x y on ho, rfl, fun a => ?_⟩
  rw [read_setPixel hw, if_congr addressed_iff rfl rfl]
  rfl

/-- Of two writes of one pixel the second stands (R163). -/
theorem setPixel_setPixel {fb : List Host.Cell} (h : FbWf fb) (x y : Int) (v w : Bool) :
    setPixel (setPixel fb x y v) x y w = setPixel fb x y w := by
  have hv := setPixel_wf h x y v
  refine fb_ext (setPixel_wf hv x y w) (setPixel_wf h x y w) fun px py hx hy => ?_
  rw [pixelAt_setPixel hv _ _ _ hx hy, pixelAt_setPixel h _ _ _ hx hy, pixelAt_setPixel h _ _ _ hx hy]
  split <;> rfl

/-- Writing the value that a pixel already has changes nothing. -/
theorem setPixel_pixelAt {fb : List Host.Cell} (h : FbWf fb) (x y : Nat) :
    setPixel fb x y (pixelAt fb x y) = fb := by
  refine fb_ext (setPixel_wf h _ _ _) h fun px py hx hy => ?_
  rw [pixelAt_setPixel h _ _ _ hx hy]
  split
  next hp => rw [Int.ofNat_inj.mp hp.1, Int.ofNat_inj.mp hp.2]
  next => rfl

/-- (a) of R163, whatever the guard says. -/
theorem exec_setPixel_outside {x y : Coord} (on : Bool) (s : State)
    (hout : ¬(0 ≤ x.toInt ∧ x.toInt < 128 ∧ 0 ≤ y.toInt ∧ y.toInt < 128)) :
    exec (.setPixel x y on) s = .next s := by
  cases ho : operational s.ds
  case false => exact exec_setPixel_guarded x y on ho
  case true =>
    have hb : inBounds x.toInt y.toInt = false := Bool.eq_false_of_not_eq_true (mt (inBounds_iff _ _).mp hout)
    rw [exec_setPixel x y on ho, setPixel_outside hb]

/-- After `set_pixel`, another at the same place is as if it were the only one. -/
theorem exec_setPixel_again (x y : Coord) (v w : Bool) {s : State} (ho : operational s.ds = true) (hw : FbWf s.fb) :
    exec (.setPixel x y w) { s with fb := setPixel s.fb x.toInt y.toInt v } =
      .next { s with fb := setPixel s.fb x.toInt y.toInt w } := by
  rw [exec_setPixel, setPixel_setPixel hw]
  exact ho

theorem toInt_eq_toNat_of_nonneg {v : Coord} (h : 0 ≤ v.toInt) : v.toInt = v.toNat :=
  BitVec.toInt_eq_toNat_of_lt (not_le.mp (mt BitVec.toInt_neg_iff.mpr h.not_gt))

/-- (b) of R163: a pixel set and then cleared is as if only cleared. -/
theorem exec_setPixel_set_clear {x y : Coord} {s : State} (hx0 : 0 ≤ x.toInt) (hx : x.toInt < 128)
    (hy0 : 0 ≤ y.toInt) (hy : y.toInt < 128) (ho : operational s.ds = true) (hw : FbWf s.fb) :
    ∃ t u, exec (.setPixel x y true) s = .next t ∧ exec (.setPixel x y false) t = .next u ∧
      Memory.read u.fb (y.toNat / 8 * 128 + x.toNat) =
        Memory.read s.fb (y.toNat / 8 * 128 + x.toNat) &&& ~~~(1#8 <<< (y.toNat % 8)) ∧
      (pixelAt s.fb x.toNat y.toNat = false → u = s) := by
  have hxn := toInt_eq_toNat_of_nonneg hx0
  have hyn := toInt_eq_toNat_of_nonneg hy0
  refine ⟨_, _, exec_setPixel x y true ho, exec_setPixel_again x y true false ho hw, ?_, fun hclear => ?_⟩
  · rw [read_setPixel hw, if_pos (addressed_iff.mpr ⟨hx0, hx, hy0, hy, by omega⟩), hyn, Int.toNat_natCast]
    rfl
  · rw [hxn, hyn, ← hclear, setPixel_pixelAt hw]

/-- (c) of R163, whatever the guard says. -/
theorem exec_setPixel_twice (x y : Coord) (on : Bool) {s : State} (hw : FbWf s.fb) :
    ∃ t, exec (.setPixel x y on) s = .next t ∧ exec (.setPixel x y on) t = .next t := by
  cases ho : operational s.ds
  case false => exact ⟨s, exec_setPixel_guarded x y on ho, exec_setPixel_guarded x y on ho⟩
  case true => exact ⟨_, exec_setPixel x y on ho, exec_setPixel_again x y on on ho hw⟩

/-- Settles O23, one lemma for each of R163's properties. -/
theorem setPixelProperties : Obligations.SetPixelProperties := fun x y s =>
  ⟨fun on hout => exec_setPixel_outside on s hout, exec_setPixel_set_clear,
    fun on hw => exec_setPixel_twice x y on hw⟩

/-! ### `clear` (R160) -/

/-- `clear` past its guard. -/
theorem exec_clear {s : State} (ho : operational s.ds = true) : exec .clear s = .next { s with fb := clearBytes } :=
  congrArg Host.Outcome.next (State.whenOperational_true ho _)

/-- Settles O24: past the guard `FB` is what R160's loop of writes leaves, in which every byte reads zero. -/
theorem clearZeroes : Obligations.ClearZeroes := fun _ hw =>
  ⟨fun ho => ⟨_, exec_clear ho, rfl, (clearLoop_eq hw).symm, fun a _ => read_clearBytes a⟩,
    exec_framebufferOp_guarded rfl⟩

end Sys2Proof.Machine
end

section
/-! PROOFS. Lines (43_raster_line_circle.md section 2): the registers of a walk after each step, as a function of how
many steps it has made in x and in y (R170), and from that the properties of R171 and the bound of R25. -/

namespace Sys2Proof.Machine

/-! ### Counts of steps

A walk over sides of length `a` and `b` is told by the pair `c` of the numbers of its steps in x and in y. -/

/-- `LERR` after `c` steps: `LDX + LDY` at first, `LDY` more for each step in x, `LDX` more for each in y (R170). -/
def lineErr (a b : Nat) (c : Nat × Nat) : Int := a - b - c.1 * b + c.2 * a

/-- The counts after one more step, by R170's two tests of the one sample `2 * LERR`. -/
def nextCounts (a b : Nat) (c : Nat × Nat) : Nat × Nat :=
  (if -b ≤ 2 * lineErr a b c then c.1 + 1 else c.1, if 2 * lineErr a b c ≤ a then c.2 + 1 else c.2)

/-- The counts after `k` steps. -/
def lineCounts (a b : Nat) : Nat → Nat × Nat
  | 0 => (0, 0)
  | k + 1 => nextCounts a b (lineCounts a b k)

theorem lineErr_nextCounts (a b : Nat) (c : Nat × Nat) : lineErr a b (nextCounts a b c) =
    lineErr a b c + (if -b ≤ 2 * lineErr a b c then -(b : Int) else 0) +
      (if 2 * lineErr a b c ≤ a then (a : Int) else 0) := by
  rw [nextCounts, lineErr]
  split_ifs <;> push_cast <;> rw [lineErr] <;> ring

theorem nextCounts_fst (a b : Nat) (c : Nat × Nat) : (nextCounts a b c).1 = c.1 + 1 ∨ (nextCounts a b c).1 = c.1 :=
  ite_eq_or_eq ..

theorem nextCounts_snd (a b : Nat) (c : Nat × Nat) : (nextCounts a b c).2 = c.2 + 1 ∨ (nextCounts a b c).2 = c.2 :=
  ite_eq_or_eq ..

theorem nextCounts_fst_ne_iff {a b : Nat} {c : Nat × Nat} :
    (nextCounts a b c).1 ≠ c.1 ↔ -b ≤ 2 * lineErr a b c := by
  simp [nextCounts]

theorem nextCounts_snd_ne_iff {a b : Nat} {c : Nat × Nat} :
    (nextCounts a b c).2 ≠ c.2 ↔ 2 * lineErr a b c ≤ a := by
  simp [nextCounts]

/-- The invariant of the walk: the longer side advances in each of the `k` steps, and the point keeps within half a step
of the true line (`LERR` within half the longer side of `LDX + LDY`). -/
structure NearLine (a b k : Nat) (c : Nat × Nat) : Prop where
  fst_eq : b ≤ a → c.1 = k
  snd_eq : a ≤ b → c.2 = k
  above : 2 * (c.2 * a) ≤ 2 * (c.1 * b) + max a b
  below : 2 * (c.1 * b) ≤ 2 * (c.2 * a) + max a b

theorem NearLine.swap {a b k : Nat} {c : Nat × Nat} (h : NearLine a b k c) : NearLine b a k c.swap :=
  ⟨h.snd_eq, h.fst_eq, max_comm a b ▸ h.below, max_comm a b ▸ h.above⟩

/-- R25's induction, with a case for a step in both, in x alone and in y alone; one of the tests always holds. -/
theorem NearLine.next {a b k : Nat} {c : Nat × Nat} (h : NearLine a b k c) :
    NearLine a b (k + 1) (nextCounts a b c) := by
  obtain ⟨i, j⟩ := c
  obtain ⟨hi, hj, habove, hbelow⟩ := h
  simp only at hi hj habove hbelow
  unfold nextCounts lineErr
  simp only [← Nat.cast_mul]
  split_ifs
  all_goals constructor <;> simp only [Nat.add_mul] <;> omega

theorem nearLine_lineCounts (a b : Nat) : ∀ k, NearLine a b k (lineCounts a b k)
  | 0 => by constructor <;> simp [lineCounts]
  | k + 1 => (nearLine_lineCounts a b k).next

/-- No step stands still: the longer side advances. -/
theorem NearLine.nextCounts_ne {a b k : Nat} {c : Nat × Nat} (h : NearLine a b k c) : nextCounts a b c ≠ c := by
  intro heq
  have hnext := heq ▸ h.next
  rcases le_total b a with hba | hab
  · exact Nat.succ_ne_self k ((hnext.fst_eq hba).symm.trans (h.fst_eq hba))
  · exact Nat.succ_ne_self k ((hnext.snd_eq hab).symm.trans (h.snd_eq hab))

/-- Within the walk's length the end is not overrun in x. -/
theorem NearLine.fst_le {a b k : Nat} {c : Nat × Nat} (h : NearLine a b k c) (hk : k ≤ max a b) : c.1 ≤ a := by
  obtain ⟨hfst, hsnd, -, hbelow⟩ := h
  by_contra hgt
  have hx : (a + 1) * b ≤ c.1 * b := Nat.mul_le_mul_right b (by omega)
  have hy : c.2 * a ≤ b * a := Nat.mul_le_mul_right a (by omega)
  rw [Nat.add_mul, Nat.mul_comm a b] at hx
  omega

/-- From the walk's length on the end is reached in x. -/
theorem NearLine.le_fst {a b k : Nat} {c : Nat × Nat} (h : NearLine a b k c) (hk : max a b ≤ k) : a ≤ c.1 := by
  obtain ⟨hfst, hsnd, habove, -⟩ := h
  by_contra hlt
  have hx : (c.1 + 1) * b ≤ a * b := Nat.mul_le_mul_right b (by omega)
  have hy : b * a ≤ c.2 * a := Nat.mul_le_mul_right a (by omega)
  rw [Nat.add_mul, Nat.mul_comm a b] at hx
  omega

theorem NearLine.le_sides {a b k : Nat} {c : Nat × Nat} (h : NearLine a b k c) (hk : k ≤ max a b) :
    c.1 ≤ a ∧ c.2 ≤ b :=
  ⟨h.fst_le hk, h.swap.fst_le (max_comm a b ▸ hk)⟩

/-- The counts are those of the end point after exactly as many steps as the longer side has. -/
theorem lineCounts_eq_sides_iff {a b k : Nat} (hk : k ≤ max a b) : lineCounts a b k = (a, b) ↔ k = max a b := by
  have h := nearLine_lineCounts a b k
  obtain ⟨hx, hy⟩ := h.le_sides hk
  constructor
  · intro hc
    have hfst := h.fst_eq
    have hsnd := h.snd_eq
    rw [hc] at hfst hsnd
    omega
  · rintro rfl
    exact Prod.ext (hx.antisymm (h.le_fst le_rfl)) (hy.antisymm (h.swap.le_fst (max_comm a b).ge))

/-- R25's bound, in counts. -/
theorem NearLine.lineErr_le {a b k : Nat} {c : Nat × Nat} (h : NearLine a b k c) :
    (2 * lineErr a b c).natAbs ≤ 3 * max a b := by
  obtain ⟨-, -, habove, hbelow⟩ := h
  unfold lineErr
  simp only [← Nat.cast_mul]
  omega

/-! ### Registers -/

/-- R170's step: each test adds its own change to `LERR`, and neither sees the other's. -/
theorem lineStep_eq (r : LineRegs) : lineStep r =
    { r with
      lx := if 2 * r.lerr ≥ r.ldy then r.lx + r.lsx else r.lx
      ly := if 2 * r.lerr ≤ r.ldx then r.ly + r.lsy else r.ly
      lerr := r.lerr + (if 2 * r.lerr ≥ r.ldy then r.ldy else 0) + (if 2 * r.lerr ≤ r.ldx then r.ldx else 0)
      le2 := 2 * r.lerr } := by
  unfold lineStep lineStepX lineStepY
  by_cases hx : 2 * r.lerr ≥ r.ldy <;> by_cases hy : 2 * r.lerr ≤ r.ldx <;> simp [hx, hy]

/-- The step sign from `u` towards `v` (`LSX`, `LSY`). -/
def lineSign (u v : Int) : Int := if u < v then 1 else -1

theorem lineSign_eq (u v : Int) : lineSign u v = 1 ∨ lineSign u v = -1 := by
  unfold lineSign
  split <;> simp

/-- As many steps as the side is long lead from its one end to the other. -/
theorem add_side_mul_lineSign (u v : Int) : u + (v - u).natAbs * lineSign u v = v := by
  unfold lineSign
  split <;> omega

theorem natAbs_mul_lineSign (n : Nat) (u v : Int) : (n * lineSign u v).natAbs = n := by
  rcases lineSign_eq u v with h | h <;> simp [h]

theorem add_mul_lineSign_inj {m n : Nat} (u v w : Int) :
    w + m * lineSign u v = w + n * lineSign u v ↔ m = n := by
  rcases lineSign_eq u v with h | h <;> rw [h] <;> omega

/-- The point of a walk after `c` steps. -/
def countsPoint (x0 y0 x1 y1 : Int) (c : Nat × Nat) : Int × Int :=
  (x0 + c.1 * lineSign x0 x1, y0 + c.2 * lineSign y0 y1)

/-- A count moves its coordinate by the step sign. -/
theorem add_ite_succ_mul (w s : Int) (n : Nat) (p : Prop) [Decidable p] :
    w + (if p then n + 1 else n : Nat) * s = if p then w + n * s + s else w + n * s := by
  split
  · push_cast; ring
  · rfl

theorem countsPoint_nextCounts (x0 y0 x1 y1 : Int) (a b : Nat) (c : Nat × Nat) :
    countsPoint x0 y0 x1 y1 (nextCounts a b c) =
      (if -b ≤ 2 * lineErr a b c then x0 + c.1 * lineSign x0 x1 + lineSign x0 x1 else x0 + c.1 * lineSign x0 x1,
        if 2 * lineErr a b c ≤ a then y0 + c.2 * lineSign y0 y1 + lineSign y0 y1 else y0 + c.2 * lineSign y0 y1) :=
  Prod.ext (add_ite_succ_mul ..) (add_ite_succ_mul ..)

theorem countsPoint_injective (x0 y0 x1 y1 : Int) : Function.Injective (countsPoint x0 y0 x1 y1) := fun _ _ h =>
  Prod.ext ((add_mul_lineSign_inj ..).mp (Prod.ext_iff.mp h).1) ((add_mul_lineSign_inj ..).mp (Prod.ext_iff.mp h).2)

/-- The registers after `c` steps; `LE2` holds an earlier sample. -/
def countsRegs (x0 y0 x1 y1 e2 : Int) (c : Nat × Nat) : LineRegs where
  lx := (countsPoint x0 y0 x1 y1 c).1
  ly := (countsPoint x0 y0 x1 y1 c).2
  lx1 := x1
  ly1 := y1
  ldx := (x1 - x0).natAbs
  ldy := -(y1 - y0).natAbs
  lsx := lineSign x0 x1
  lsy := lineSign y0 y1
  lerr := lineErr (x1 - x0).natAbs (y1 - y0).natAbs c
  le2 := e2

section
variable (x0 y0 x1 y1 : Int)

theorem lineStart_eq_countsRegs : lineStart x0 y0 x1 y1 =
    countsRegs x0 y0 x1 y1 (2 * lineErr (x1 - x0).natAbs (y1 - y0).natAbs (0, 0)) (0, 0) := by
  simp [countsRegs, countsPoint, lineErr, lineStart, lineSign, Int.sub_eq_add_neg]

/-- One step of the registers is one step of the counts (R170). -/
theorem lineStep_countsRegs (e2 : Int) (c : Nat × Nat) : lineStep (countsRegs x0 y0 x1 y1 e2 c) =
    countsRegs x0 y0 x1 y1 (2 * lineErr (x1 - x0).natAbs (y1 - y0).natAbs c)
      (nextCounts (x1 - x0).natAbs (y1 - y0).natAbs c) := by
  rw [lineStep_eq]
  simp only [countsRegs, lineErr_nextCounts, countsPoint_nextCounts]
  rfl

theorem lineDone_countsRegs (e2 : Int) (c : Nat × Nat) :
    lineDone (countsRegs x0 y0 x1 y1 e2 c) = true ↔ c = ((x1 - x0).natAbs, (y1 - y0).natAbs) := by
  have hx := add_mul_lineSign_inj (m := c.1) (n := (x1 - x0).natAbs) x0 x1 x0
  have hy := add_mul_lineSign_inj (m := c.2) (n := (y1 - y0).natAbs) y0 y1 y0
  rw [add_side_mul_lineSign] at hx hy
  rw [Prod.ext_iff, ← hx, ← hy]
  simp [lineDone, countsRegs, countsPoint]

/-- The point of a walk after `k` steps. -/
def linePoint (k : Nat) : Int × Int :=
  countsPoint x0 y0 x1 y1 (lineCounts (x1 - x0).natAbs (y1 - y0).natAbs k)

/-- From step `k` on, with `n` steps left, the walk plots the points of those steps, whatever the bound on plots. -/
theorem lineWalk_countsRegs (more : Nat) : ∀ (n k : Nat) (e2 : Int), k + n = max (x1 - x0).natAbs (y1 - y0).natAbs →
    lineWalk (n + 1 + more) (countsRegs x0 y0 x1 y1 e2 (lineCounts (x1 - x0).natAbs (y1 - y0).natAbs k)) =
      (List.range' k (n + 1)).map (linePoint x0 y0 x1 y1)
  | 0, k, e2, hk => by
    have hdone := (lineDone_countsRegs x0 y0 x1 y1 e2 _).mpr ((lineCounts_eq_sides_iff (Nat.le.intro hk)).mpr hk)
    rw [Nat.add_right_comm, lineWalk, if_pos hdone]
    rfl
  | n + 1, k, e2, hk => by
    have hrun := mt (lineDone_countsRegs x0 y0 x1 y1 e2 _).mp
      (mt (lineCounts_eq_sides_iff (Nat.le.intro hk)).mp (by omega))
    rw [Nat.add_right_comm, lineWalk, if_neg hrun, lineStep_countsRegs, List.range'_succ, List.map_cons,
      ← lineWalk_countsRegs more n (k + 1) _ (by omega)]
    rfl

/-- A walk's loop ends by its own end test: no bound on plots from `max(LDX, -LDY) + 1` up cuts it off. -/
theorem lineWalk_lineStart (more : Nat) :
    lineWalk (max (x1 - x0).natAbs (y1 - y0).natAbs + 1 + more) (lineStart x0 y0 x1 y1) =
      (List.range (max (x1 - x0).natAbs (y1 - y0).natAbs + 1)).map (linePoint x0 y0 x1 y1) := by
  rw [lineStart_eq_countsRegs, List.range_eq_range']
  exact lineWalk_countsRegs x0 y0 x1 y1 more _ 0 _ (Nat.zero_add _)

theorem linePoints_eq : linePoints x0 y0 x1 y1 =
    (List.range (max (x1 - x0).natAbs (y1 - y0).natAbs + 1)).map (linePoint x0 y0 x1 y1) :=
  lineWalk_lineStart x0 y0 x1 y1 0

theorem linePoint_zero : linePoint x0 y0 x1 y1 0 = (x0, y0) := by
  simp [linePoint, countsPoint, lineCounts]

theorem linePoint_max : linePoint x0 y0 x1 y1 (max (x1 - x0).natAbs (y1 - y0).natAbs) = (x1, y1) := by
  rw [linePoint, (lineCounts_eq_sides_iff le_rfl).mpr rfl, countsPoint, add_side_mul_lineSign, add_side_mul_lineSign]

theorem linePoints_getElem?_eq_some_iff {k : Nat} {p : Int × Int} : (linePoints x0 y0 x1 y1)[k]? = some p ↔
    k ≤ max (x1 - x0).natAbs (y1 - y0).natAbs ∧ linePoint x0 y0 x1 y1 k = p := by
  simp [linePoints_eq, List.getElem?_eq_some_iff]

theorem mem_linePoints {p : Int × Int} : p ∈ linePoints x0 y0 x1 y1 ↔
    ∃ k ≤ max (x1 - x0).natAbs (y1 - y0).natAbs, linePoint x0 y0 x1 y1 k = p := by
  simp only [List.mem_iff_getElem?, linePoints_getElem?_eq_some_iff]

end

/-! ### The properties of R171 -/

/-- Settles O26: the walk is the list of the points after 0 to `max(LDX, -LDY)` steps. -/
theorem lineCountAndEnds : Obligations.LineCountAndEnds := by
  refine fun x0 y0 x1 y1 more => ⟨?_, ?_, ?_, ?_⟩
  · rw [linePoints_eq, List.length_map, List.length_range]
  · rw [linePoints_eq, List.range_succ_eq_map, List.map_cons, List.head?_cons, linePoint_zero]
  · rw [linePoints_eq, List.range_succ, List.map_append, List.map_singleton, List.getLast?_concat, linePoint_max]
  · rw [lineWalk_lineStart, linePoints_eq]

/-- `LERR`, from the distances of the walk's point from the start. -/
theorem lineErr_eq_of_countsPoint (x0 y0 x1 y1 : Int) (c : Nat × Nat) :
    |x1 - x0| - |y1 - y0| + |(countsPoint x0 y0 x1 y1 c).1 - x0| * -|y1 - y0| +
      |(countsPoint x0 y0 x1 y1 c).2 - y0| * |x1 - x0| = lineErr (x1 - x0).natAbs (y1 - y0).natAbs c := by
  simp only [countsPoint, add_sub_cancel_left, Int.abs_eq_natAbs, natAbs_mul_lineSign, lineErr]
  ring

/-- Moving a coordinate by as many steps or one more moves it by at most one. -/
theorem natAbs_step_le_one {m n : Nat} (u v w : Int) (h : m = n + 1 ∨ m = n) :
    (w + m * lineSign u v - (w + n * lineSign u v)).natAbs ≤ 1 := by
  rcases lineSign_eq u v with hs | hs <;> rw [hs] <;> omega

/-- Settles O27: consecutive points are those of consecutive counts. -/
theorem lineStepsByOne : Obligations.LineStepsByOne := by
  intro x0 y0 x1 y1 k p q hp hq
  obtain ⟨-, rfl⟩ := (linePoints_getElem?_eq_some_iff ..).mp hp
  obtain ⟨-, rfl⟩ := (linePoints_getElem?_eq_some_iff ..).mp hq
  have hnear := nearLine_lineCounts (x1 - x0).natAbs (y1 - y0).natAbs k
  simp only [linePoint, lineCounts]
  rw [lineErr_eq_of_countsPoint, Int.abs_eq_natAbs, Int.abs_eq_natAbs, ← nextCounts_fst_ne_iff,
    ← nextCounts_snd_ne_iff]
  refine ⟨⟨natAbs_step_le_one _ _ _ (nextCounts_fst ..), natAbs_step_le_one _ _ _ (nextCounts_snd ..), ?_⟩,
    not_congr (add_mul_lineSign_inj ..), not_congr (add_mul_lineSign_inj ..)⟩
  exact fun h => hnear.nextCounts_ne (countsPoint_injective _ _ _ _ h).symm

/-! ### Horizontal and vertical lines -/

/-- The steps from `u` to `v` meet exactly the integers between them. -/
theorem exists_step_iff {u v w : Int} :
    (∃ k ≤ (v - u).natAbs, u + (k : Int) * lineSign u v = w) ↔ min u v ≤ w ∧ w ≤ max u v := by
  unfold lineSign
  constructor
  · rintro ⟨k, hk, rfl⟩
    split <;> omega
  · intro hw
    refine ⟨(w - u).natAbs, by omega, ?_⟩
    split <;> omega

theorem lineCounts_horizontal {a k : Nat} (hk : k ≤ a) : lineCounts a 0 k = (k, 0) := by
  have h := nearLine_lineCounts a 0 k
  have hk' : k ≤ max a 0 := le_max_of_le_left hk
  exact Prod.ext (h.fst_eq (Nat.zero_le a)) (Nat.le_zero.mp (h.le_sides hk').2)

theorem mem_linePoints_horizontal {a b c : Int} {p : Int × Int} :
    p ∈ linePoints a c b c ↔ p.2 = c ∧ min a b ≤ p.1 ∧ p.1 ≤ max a b := by
  have hpoint : ∀ k ≤ (b - a).natAbs, linePoint a c b c k = (a + k * lineSign a b, c) := fun k hk => by
    simp [linePoint, countsPoint, lineCounts_horizontal hk]
  rw [mem_linePoints, ← exists_step_iff]
  simp only [sub_self, Int.natAbs_zero, Nat.max_zero]
  constructor
  · rintro ⟨k, hk, rfl⟩
    rw [hpoint k hk]
    exact ⟨rfl, k, hk, rfl⟩
  · rintro ⟨rfl, k, hk, hx⟩
    exact ⟨k, hk, (hpoint k hk).trans (Prod.ext hx rfl)⟩

/-! A walk with x and y exchanged is the mirror image: its `LERR` is the negative, so the two tests change places. -/

theorem lineErr_swap (a b : Nat) (c : Nat × Nat) : lineErr b a c.swap = -lineErr a b c := by
  simp only [lineErr, Prod.fst_swap, Prod.snd_swap]
  ring

theorem nextCounts_swap (a b : Nat) (c : Nat × Nat) : nextCounts b a c.swap = (nextCounts a b c).swap := by
  rw [nextCounts, lineErr_swap]
  exact Prod.ext (if_congr (by omega) rfl rfl) (if_congr (by omega) rfl rfl)

theorem lineCounts_swap (a b : Nat) : ∀ k, lineCounts b a k = (lineCounts a b k).swap
  | 0 => rfl
  | k + 1 => by rw [lineCounts, lineCounts_swap a b k, nextCounts_swap, lineCounts]

theorem linePoint_swap (x0 y0 x1 y1 : Int) (k : Nat) :
    linePoint y0 x0 y1 x1 k = (linePoint x0 y0 x1 y1 k).swap := by
  rw [linePoint, lineCounts_swap]
  rfl

theorem mem_linePoints_swap {x0 y0 x1 y1 : Int} {p : Int × Int} :
    p ∈ linePoints y0 x0 y1 x1 ↔ p.swap ∈ linePoints x0 y0 x1 y1 := by
  simp only [mem_linePoints, linePoint_swap x0 y0 x1 y1, Prod.swap_eq_iff_eq_swap, max_comm]

/-- Settles O28: the vertical line is the mirror image of the horizontal one. -/
theorem axisLines : Obligations.AxisLines := fun _ _ _ _ =>
  ⟨mem_linePoints_horizontal, mem_linePoints_swap.trans mem_linePoints_horizontal⟩

/-! ### The width of the error registers (R25) -/

/-- After `k` steps the registers are those of the counts, and `LE2` is in the bound of `2 * LERR`. -/
theorem repeat_lineStep_lineStart (x0 y0 x1 y1 : Int) : ∀ k : Nat, ∃ e2 : Int,
    e2.natAbs ≤ 3 * max (x1 - x0).natAbs (y1 - y0).natAbs ∧
      Nat.repeat lineStep k (lineStart x0 y0 x1 y1) =
        countsRegs x0 y0 x1 y1 e2 (lineCounts (x1 - x0).natAbs (y1 - y0).natAbs k)
  | 0 => ⟨_, (nearLine_lineCounts _ _ 0).lineErr_le, lineStart_eq_countsRegs ..⟩
  | k + 1 => by
    obtain ⟨e2, -, hk⟩ := repeat_lineStep_lineStart x0 y0 x1 y1 k
    exact ⟨_, (nearLine_lineCounts _ _ k).lineErr_le, (congrArg lineStep hk).trans (lineStep_countsRegs ..)⟩

/-- Two 16-bit coordinates lie at most 65535 apart. -/
theorem coord_dist_le (u v : Coord) : (v.toInt - u.toInt).natAbs ≤ 65535 := by
  have hu := u.le_toInt
  have hu' := u.toInt_lt
  have hv := v.le_toInt
  have hv' := v.toInt_lt
  omega

/-- Settles O29: the invariant bounds `2 * LERR`, hence also the sample of it in `LE2`, by three longer sides. -/
theorem lineErrorBounded : Obligations.LineErrorBounded := by
  intro x0 y0 x1 y1 k _
  obtain ⟨e2, he2, hregs⟩ := repeat_lineStep_lineStart x0.toInt y0.toInt x1.toInt y1.toInt k
  have herr := (nearLine_lineCounts (x1.toInt - x0.toInt).natAbs (y1.toInt - y0.toInt).natAbs k).lineErr_le
  have hdx := coord_dist_le x0 x1
  have hdy := coord_dist_le y0 y1
  rw [hregs]
  simp only [countsRegs]
  omega

end Sys2Proof.Machine
end

section
/-! PROOFS. Circles (43_raster_line_circle.md section 3): the loop of R173 as a list of passes, each the step of
`circleNextPass` after the one before, and the properties of R174. -/

namespace Sys2Proof.Machine

/-! ### The eight points of a pass -/

/-- The eight points of the pass at `c` are those at its two distances from the centre, either way round (R173). -/
theorem mem_eightPoints {x0 y0 : Int} {c p : Int × Int} : p ∈ eightPoints x0 y0 c ↔
    (p.1 - x0).natAbs = c.1.natAbs ∧ (p.2 - y0).natAbs = c.2.natAbs ∨
      (p.1 - x0).natAbs = c.2.natAbs ∧ (p.2 - y0).natAbs = c.1.natAbs := by
  simp only [eightPoints, List.mem_cons, List.not_mem_nil, Prod.ext_iff, Int.natAbs_eq_natAbs_iff, or_false]
  grind

/-! ### Passes -/

/-- `CERR` at the pass at `c` on the circle of radius `r`, in closed form. -/
def circleErr (r : Int) (c : Int × Int) : Int := c.2 ^ 2 + 2 * c.2 + 1 + c.1 ^ 2 - c.1 - r ^ 2

/-- The registers at the pass at `c`. -/
def passRegs (x0 y0 r : Int) (on : Bool) (c : Int × Int) : CircleRegs where
  cx := c.1
  cy := c.2
  cerr := circleErr r c
  cx0 := x0
  cy0 := y0
  con := on

theorem circleStart_eq_passRegs (x0 y0 r : Int) (on : Bool) : circleStart x0 y0 r on = passRegs x0 y0 r on (r, 0) := by
  have herr : circleErr r (r, 0) = 1 - r := by rw [circleErr]; ring
  rw [passRegs, herr]
  rfl

theorem circlePass_passRegs (x0 y0 r : Int) (on : Bool) (c : Int × Int) :
    circlePass (passRegs x0 y0 r on c) = eightPoints x0 y0 c := rfl

theorem circleErr_keep (r : Int) (c : Int × Int) :
    circleErr r (c.1, c.2 + 1) = circleErr r c + 2 * (c.2 + 1) + 1 := by
  unfold circleErr
  ring

theorem circleErr_shrink (r : Int) (c : Int × Int) :
    circleErr r (c.1 - 1, c.2 + 1) = circleErr r c + 2 * (c.2 + 1 - (c.1 - 1)) + 1 := by
  unfold circleErr
  ring

/-- R173's updates keep `CERR` at its closed form. -/
theorem circleStep_passRegs (x0 y0 r : Int) (on : Bool) (c : Int × Int) :
    circleStep (passRegs x0 y0 r on c) = passRegs x0 y0 r on (circleNextPass r c) := by
  have htest : circleErr r c ≤ 0 ↔ c.2 ^ 2 + 2 * c.2 + 1 + c.1 ^ 2 - c.1 ≤ r ^ 2 := sub_nonpos
  by_cases h : circleErr r c ≤ 0
  · rw [circleNextPass, if_pos (htest.mp h), passRegs, passRegs, circleErr_keep]
    exact if_pos h
  · rw [circleNextPass, if_neg (mt htest.mpr h), passRegs, passRegs, circleErr_shrink]
    exact if_neg h

theorem circleNextPass_fst_le (r : Int) (c : Int × Int) : (circleNextPass r c).1 ≤ c.1 := by
  unfold circleNextPass
  split
  · exact le_rfl
  · exact Int.sub_le_self _ (by decide)

theorem circleNextPass_snd (r : Int) (c : Int × Int) : (circleNextPass r c).2 = c.2 + 1 := by
  unfold circleNextPass
  split <;> rfl

/-- The passes from `c` on, while `CX >= CY`; at most `fuel`. -/
def passesFrom (r : Int) : Nat → Int × Int → List (Int × Int)
  | 0, _ => []
  | fuel + 1, c => if c.1 ≥ c.2 then c :: passesFrom r fuel (circleNextPass r c) else []

/-- The passes of a circle. -/
def circlePasses (r : Int) : List (Int × Int) := passesFrom r (r.toNat + 1) (r, 0)

theorem circleWalk_passRegs (x0 y0 r : Int) (on : Bool) : ∀ (fuel : Nat) (c : Int × Int),
    circleWalk fuel (passRegs x0 y0 r on c) = (passesFrom r fuel c).flatMap (eightPoints x0 y0)
  | 0, _ => rfl
  | fuel + 1, c => by
    by_cases h : c.1 ≥ c.2
    · rw [circleWalk, passesFrom, if_pos h, List.flatMap_cons, circleStep_passRegs, circleWalk_passRegs,
        ← circlePass_passRegs x0 y0 r on]
      exact if_pos h
    · rw [circleWalk, passesFrom, if_neg h]
      exact if_neg h

theorem circlePoints_eq (x0 y0 r : Int) (on : Bool) :
    circlePoints x0 y0 r on = (circlePasses r).flatMap (eightPoints x0 y0) := by
  rw [circlePoints, circleStart_eq_passRegs, circleWalk_passRegs, circlePasses]

theorem mem_circlePoints {x0 y0 r : Int} {on : Bool} {p : Int × Int} :
    p ∈ circlePoints x0 y0 r on ↔ ∃ c ∈ circlePasses r, p ∈ eightPoints x0 y0 c := by
  rw [circlePoints_eq, List.mem_flatMap]

/-- A loop of passes over `CX < CY` makes none. -/
theorem passesFrom_of_lt {r : Int} {c : Int × Int} (fuel : Nat) (h : c.1 < c.2) : passesFrom r fuel c = [] := by
  cases fuel with
  | zero => rfl
  | succ fuel => exact if_neg (not_le.mpr h)

theorem passesFrom_succ_of_ge {r : Int} {c : Int × Int} (fuel : Nat) (h : c.2 ≤ c.1) :
    passesFrom r (fuel + 1) c = c :: passesFrom r fuel (circleNextPass r c) :=
  if_pos h

/-- Each pass brings `CX` and `CY` nearer by one at least, so a bound on passes above their distance cuts off none
(R174 (h)). -/
theorem passesFrom_add {r : Int} (more : Nat) {fuel : Nat} {c : Int × Int} (hfuel : c.1 - c.2 < fuel) :
    passesFrom r (fuel + more) c = passesFrom r fuel c := by
  fun_induction passesFrom r fuel c with
  | case1 c => exact passesFrom_of_lt _ (by omega)
  | case2 fuel c hge ih =>
    have hfst := circleNextPass_fst_le r c
    have hsnd := circleNextPass_snd r c
    rw [Nat.succ_add, passesFrom_succ_of_ge _ hge, ih (by omega)]
  | case3 fuel c hlt => exact passesFrom_of_lt _ (not_le.mp hlt)

/-- The passes stay between the axis and the diagonal. -/
theorem bounds_of_mem_passesFrom {r : Int} {fuel : Nat} {c d : Int × Int} (hd : d ∈ passesFrom r fuel c) :
    d.2 ≤ d.1 ∧ d.1 ≤ c.1 ∧ c.2 ≤ d.2 := by
  fun_induction passesFrom r fuel c with
  | case1 | case3 => exact absurd hd List.not_mem_nil
  | case2 fuel c hge ih =>
    rcases List.mem_cons.mp hd with rfl | htail
    · exact ⟨hge, le_rfl, le_rfl⟩
    · have hfst := circleNextPass_fst_le r c
      have hsnd := circleNextPass_snd r c
      have := ih htail
      omega

theorem eq_iterate_of_passesFrom_getElem? {r : Int} {fuel : Nat} {c d : Int × Int} {k : Nat}
    (hd : (passesFrom r fuel c)[k]? = some d) : d = (circleNextPass r)^[k] c := by
  fun_induction passesFrom r fuel c generalizing k with
  | case1 | case3 => exact nomatch hd
  | case2 fuel c hge ih =>
    cases k with
    | zero => exact (Option.some.inj hd).symm
    | succ k => exact ih (List.getElem?_cons_succ ▸ hd)

/-- A loop that its bound does not cut off ends after the first pass whose next would have `CX < CY`. -/
theorem lt_of_passesFrom_getLast? {r : Int} {fuel : Nat} {c d : Int × Int} (hfuel : c.1 - c.2 < fuel)
    (hd : (passesFrom r fuel c).getLast? = some d) : (circleNextPass r d).1 < (circleNextPass r d).2 := by
  fun_induction passesFrom r fuel c with
  | case1 | case3 => exact nomatch hd
  | case2 fuel c hge ih =>
    have hfst := circleNextPass_fst_le r c
    have hsnd := circleNextPass_snd r c
    rcases lt_or_ge (circleNextPass r c).1 (circleNextPass r c).2 with hend | hgoes
    · rw [passesFrom_of_lt _ hend] at hd
      exact Option.some.inj hd ▸ hend
    · obtain ⟨fuel, rfl⟩ : ∃ n, fuel = n + 1 := Nat.exists_eq_add_one.mpr (by omega)
      refine ih (by omega) ?_
      rw [passesFrom_succ_of_ge _ hgoes] at hd ⊢
      exact hd

/-! ### The properties of R174 -/

/-- Settles O32: a pass plots by distance from the centre alone, either way round. -/
theorem circleSymmetric : Obligations.CircleSymmetric := by
  intro x0 y0 r a b on h
  simp only [mem_circlePoints, mem_eightPoints, add_sub_cancel_left, sub_sub_cancel_left, Int.natAbs_neg] at h ⊢
  obtain ⟨c, hc, hab⟩ := h
  exact ⟨⟨c, hc, hab.symm.imp And.symm And.symm⟩, ⟨c, hc, hab⟩, ⟨c, hc, hab⟩⟩

/-- Settles O31: the one pass of radius 0 is at distances 0, and a negative radius has no pass. -/
theorem circleSmallRadii : Obligations.CircleSmallRadii := by
  refine fun x0 y0 r on => ⟨fun p => ?_, fun hr => ?_⟩
  · have hpasses : circlePasses 0 = [(0, 0)] := rfl
    simp [mem_circlePoints, hpasses, mem_eightPoints, Prod.ext_iff, sub_eq_zero]
  · rw [circlePoints_eq, circlePasses, passesFrom_of_lt _ hr, List.flatMap_nil]

theorem circlePasses_head? {r : Int} (hr : 0 ≤ r) : (circlePasses r).head? = some (r, 0) := by
  rw [circlePasses, passesFrom_succ_of_ge _ hr, List.head?_cons]

/-- The bound `r + 1` on passes exceeds the distance of `CX` and `CY` at the start. -/
theorem circle_fuel_suffices (r : Int) : (r, (0 : Int)).1 - (r, (0 : Int)).2 < (r.toNat + 1 : Nat) := by
  simp only
  omega

theorem circlePasses_consecutive {r : Int} {k : Nat} {a b : Int × Int} (ha : (circlePasses r)[k]? = some a)
    (hb : (circlePasses r)[k + 1]? = some b) : b = circleNextPass r a := by
  rw [eq_iterate_of_passesFrom_getElem? ha, eq_iterate_of_passesFrom_getElem? hb, Function.iterate_succ_apply']

/-- No point lies further out than the radius. -/
theorem dist_le_of_mem_circlePoints {x0 y0 r : Int} {on : Bool} {p : Int × Int} (hp : p ∈ circlePoints x0 y0 r on) :
    ((p.1 - x0).natAbs : Int) ≤ r ∧ ((p.2 - y0).natAbs : Int) ≤ r := by
  obtain ⟨c, hc, hpc⟩ := mem_circlePoints.mp hp
  obtain ⟨hdiag, hfst, hsnd⟩ : c.2 ≤ c.1 ∧ c.1 ≤ r ∧ 0 ≤ c.2 := bounds_of_mem_passesFrom hc
  rw [mem_eightPoints] at hpc
  omega

/-- The first pass puts the four points on the axes. -/
theorem axes_mem_circlePoints (x0 y0 : Int) {r : Int} (on : Bool) (hr : 0 ≤ r) :
    (x0 + r, y0) ∈ circlePoints x0 y0 r on ∧ (x0 - r, y0) ∈ circlePoints x0 y0 r on ∧
      (x0, y0 + r) ∈ circlePoints x0 y0 r on ∧ (x0, y0 - r) ∈ circlePoints x0 y0 r on := by
  have hfirst : ∀ p ∈ eightPoints x0 y0 (r, 0), p ∈ circlePoints x0 y0 r on := fun p hp =>
    mem_circlePoints.mpr ⟨_, List.mem_of_head? (circlePasses_head? hr), hp⟩
  refine ⟨hfirst _ ?_, hfirst _ ?_, hfirst _ ?_, hfirst _ ?_⟩ <;> simp [eightPoints]

/-- The loop ends by its own test, not by the bound on passes. -/
theorem circleWalk_circleStart (x0 y0 r : Int) (on : Bool) (more : Nat) :
    circleWalk (r.toNat + 1 + more) (circleStart x0 y0 r on) = circlePoints x0 y0 r on := by
  rw [circleStart_eq_passRegs, circleWalk_passRegs, passesFrom_add more (circle_fuel_suffices r), circlePoints_eq,
    circlePasses]

/-- Settles O33: `circlePasses r` are the passes. -/
theorem circleExtent : Obligations.CircleExtent := by
  intro x0 y0 r on more hr
  obtain ⟨hright, hleft, hbelow, habove⟩ := axes_mem_circlePoints x0 y0 on hr
  have hpasses := circlePoints_eq x0 y0 r on
  exact ⟨⟨circlePasses r, hpasses, circlePasses_head? hr, fun c hc => (bounds_of_mem_passesFrom hc).left,
      fun _ _ _ => circlePasses_consecutive, fun _ => lt_of_passesFrom_getLast? (circle_fuel_suffices r)⟩,
    fun _ => dist_le_of_mem_circlePoints, hright, hleft, hbelow, habove, circleWalk_circleStart x0 y0 r on more⟩

end Sys2Proof.Machine
end

section
/-! PROOFS. Bitmaps, characters and strings (44_blit_glyph.md): which pixels each engine writes and with which bit, by
their coordinates (R180, R184, R186), and what the spec derives from that (R181, R185, R187). -/

namespace Sys2Proof.Machine

/-! ### Pixels of a list of plots -/

/-- A pixel that the plots name with one value only takes that value if they name it at all. -/
theorem pixelAt_plotAll_of_mem_iff {fb : List Host.Cell} (h : FbWf fb) {ps : List Plot} {px py : Nat} (hx : px < 128)
    (hy : py < 128) {named : Prop} [Decidable named] {bit : Bool}
    (hm : ∀ v, (⟨px, py, v⟩ : Plot) ∈ ps ↔ named ∧ v = bit) :
    pixelAt (plotAll fb ps) px py = if named then bit else pixelAt fb px py := by
  have hbit : ∀ p ∈ ps, p.x = px ∧ p.y = py → p.on = bit := by
    rintro ⟨_, _, v⟩ hp ⟨rfl, rfl⟩
    exact ((hm v).mp hp).2
  have hnamed : (∃ p ∈ ps, p.x = px ∧ p.y = py) ↔ named := by
    constructor
    · rintro ⟨⟨_, _, v⟩, hp, rfl, rfl⟩
      exact ((hm v).mp hp).1
    · exact fun hn => ⟨_, (hm bit).mpr ⟨hn, rfl⟩, rfl, rfl⟩
  rw [pixelAt_plotAll h ps hx hy hbit, if_congr hnamed rfl rfl]

/-! ### Bitmaps (R180) -/

/-- `draw_bitmap` past its guard, with both sides positive. -/
theorem exec_drawBitmap (x y : Coord) {w h : Coord} (bitmap : List Byte) (on : Bool) {s : State}
    (ho : operational s.ds = true) (hw : 0 < w.toInt) (hh : 0 < h.toInt) :
    exec (.drawBitmap x y w h bitmap on) s =
      .next (s.plot (bitmapPlots bitmap s.draws x.toInt y.toInt w.toNat h.toNat on)).leaveBlit := by
  have hwn : w.toInt.toNat = w.toNat := by rw [toInt_eq_toNat_of_nonneg hw.le, Int.toNat_natCast]
  have hhn : h.toInt.toNat = h.toNat := by rw [toInt_eq_toNat_of_nonneg hh.le, Int.toNat_natCast]
  have hsides : ¬(w.toInt ≤ 0 ∨ h.toInt ≤ 0) := by omega
  refine congrArg Host.Outcome.next ((State.whenOperational_true ho _).trans ?_)
  simp only [sext16_eq, State.drawBitmap_eq s hsides, hwn, hhn]

/-- With a side that is not positive `draw_bitmap` does nothing, whatever the guard says. -/
theorem exec_drawBitmap_empty {x y w h : Coord} (bitmap : List Byte) (on : Bool) (s : State)
    (he : w.toInt ≤ 0 ∨ h.toInt ≤ 0) : exec (.drawBitmap x y w h bitmap on) s = .next s := by
  cases ho : operational s.ds
  case false => exact exec_framebufferOp_guarded rfl ho
  case true => exact congrArg Host.Outcome.next ((State.whenOperational_true ho _).trans (s.drawBitmap_empty he))

/-- The plots of a bitmap at a pixel: the source bit of its place in the box is set. -/
theorem mem_bitmapPlots_at {bitmap : List Byte} {draw w h : Nat} {x y px py : Int} {on v : Bool} :
    (⟨px, py, v⟩ : Plot) ∈ bitmapPlots bitmap draw x y w h on ↔
      (x ≤ px ∧ px < x + w ∧ y ≤ py ∧ py < y + h ∧
        bmpBit bitmap draw w (px - x).toNat (py - y).toNat = true) ∧ v = on := by
  rw [mem_bitmapPlots]
  constructor
  · rintro ⟨i, j, hi, hj, hb, hp⟩
    cases hp
    rw [add_sub_cancel_left, add_sub_cancel_left]
    exact ⟨⟨by omega, by omega, by omega, by omega, hb⟩, rfl⟩
  · rintro ⟨⟨hx, hxw, hy, hyh, hb⟩, rfl⟩
    refine ⟨_, _, ?_, ?_, hb, ?_⟩
    · omega
    · omega
    · congr 1 <;> omega

/-- The byte of a source bit in the box is among the `h * ((w+7)/8)` bytes of the contract (R52, R180). -/
theorem bmpByte_lt {w h i j : Nat} (hi : i < w) (hj : j < h) : j * ((w + 7) / 8) + i / 8 < h * ((w + 7) / 8) :=
  calc j * ((w + 7) / 8) + i / 8 < j * ((w + 7) / 8) + (w + 7) / 8 := by omega
    _ = (j + 1) * ((w + 7) / 8) := (Nat.succ_mul _ _).symm
    _ ≤ h * ((w + 7) / 8) := Nat.mul_le_mul_right _ hj

/-- The tested bit, where the bitmap holds its byte. -/
theorem bmpBit_eq {bitmap : List Byte} (draw : Nat) {w i j : Nat} (h : j * ((w + 7) / 8) + i / 8 < bitmap.length) :
    bmpBit bitmap draw w i j = (bitmap.getD (j * ((w + 7) / 8) + i / 8) 0).getLsbD (7 - i % 8) :=
  congrArg (·.getLsbD (7 - i % 8)) (operandRead_eq draw _ h)

/-- Settles O34: the pixels named by a plot are those of the box with a set source bit, and the bitmap holds that bit's
byte. -/
theorem bitmapStencil : Obligations.BitmapStencil := by
  intro x y w h bitmap on s
  refine ⟨fun hskip => hskip.elim (exec_framebufferOp_guarded rfl) (exec_drawBitmap_empty bitmap on s),
    fun ho hw hh hwf hc => ⟨_, exec_drawBitmap x y bitmap on ho hw hh, rfl, fun px py hpx hpy => ?_,
      fun a ha => read_plotAll_outside hwf _ ha⟩⟩
  have hwn := toInt_eq_toNat_of_nonneg hw.le
  have hhn := toInt_eq_toNat_of_nonneg hh.le
  have hlen : h.toNat * ((w.toNat + 7) / 8) ≤ bitmap.length := by
    simp only [InContract, decide_eq_false hw.not_ge, decide_eq_false hh.not_ge, Bool.false_or, decide_eq_true_eq] at hc
    rwa [hwn, hhn] at hc
  refine pixelAt_plotAll_of_mem_iff hwf hpx hpy fun v => ?_
  rw [mem_bitmapPlots_at, hwn, hhn]
  refine and_congr_left' (and_congr_right fun hx => and_congr_right fun hxw => and_congr_right fun hy =>
    and_congr_right fun hyh => ?_)
  have hi : (px - x.toInt).toNat < w.toNat := by omega
  have hj : (py - y.toInt).toNat < h.toNat := by omega
  rw [bmpBit_eq s.draws ((bmpByte_lt hi hj).trans_le hlen)]

/-- The plots of a bitmap depend on its tested bits alone. -/
theorem bitmapPlots_congr {b c : List Byte} {draw w h : Nat} (x y : Int) (on : Bool)
    (hbit : ∀ i < w, ∀ j < h, bmpBit b draw w i j = bmpBit c draw w i j) :
    bitmapPlots b draw x y w h on = bitmapPlots c draw x y w h on :=
  List.flatMap_congr fun j hj => List.filterMap_congr fun i hi => by
    rw [hbit i (List.mem_range.mp hi) j (List.mem_range.mp hj)]

/-- Bitmaps of one length that agree on a bit, where they hold it, are tested alike there: a byte that is missing is
missing in both, and reads as the same free byte (U6, log 18). -/
theorem bmpBit_congr {b c : List Byte} (draw : Nat) {w i j : Nat} (hlen : b.length = c.length)
    (hbit : (b.getD (j * ((w + 7) / 8) + i / 8) 0).getLsbD (7 - i % 8) =
      (c.getD (j * ((w + 7) / 8) + i / 8) 0).getLsbD (7 - i % 8)) :
    bmpBit b draw w i j = bmpBit c draw w i j := by
  by_cases hb : j * ((w + 7) / 8) + i / 8 < b.length
  · rw [bmpBit_eq draw hb, bmpBit_eq draw (hlen ▸ hb), hbit]
  · have hbnone := List.getElem?_eq_none (not_lt.mp hb)
    have hcnone := List.getElem?_eq_none (hlen ▸ not_lt.mp hb)
    simp only [bmpBit, bmpRead, operandRead, bmpStride, hbnone, hcnone]

/-- Settles O36: where anything is drawn, the tested bits agree, hence the plots. -/
theorem bitmapPaddingUnread : Obligations.BitmapPaddingUnread := by
  intro x y w h b c on s hlen hbit
  by_cases he : w.toInt ≤ 0 ∨ h.toInt ≤ 0
  · rw [exec_drawBitmap_empty b on s he, exec_drawBitmap_empty c on s he]
  obtain ⟨hw, hh⟩ : 0 < w.toInt ∧ 0 < h.toInt := by omega
  cases ho : operational s.ds
  case false => rw [exec_framebufferOp_guarded rfl ho, exec_framebufferOp_guarded rfl ho]
  case true =>
    have hwn := toInt_eq_toNat_of_nonneg hw.le
    have hhn := toInt_eq_toNat_of_nonneg hh.le
    rw [exec_drawBitmap x y b on ho hw hh, exec_drawBitmap x y c on ho hw hh,
      bitmapPlots_congr _ _ on fun i hi j hj => bmpBit_congr s.draws hlen (hbit i j (by omega) (by omega))]

/-! ### Characters (R183, R184) -/

/-- Bit `row` of column `col` of a character's glyph (R28, R184). -/
def glyphBit (font : List Host.Cell) (c : Byte) (col row : Nat) : Bool :=
  (Memory.read font ((c.toNat - 32) * 5 + col)).getLsbD row

/-- `draw_char` of a valid code past its guard. -/
theorem exec_drawChar (x y : Coord) {c : Byte} {s : State} (ho : operational s.ds = true) (hc : validChar c = true) :
    exec (.drawChar x y c) s = .next (s.plot (glyphPlots s.font x.toInt y.toInt c)).leaveGlyph :=
  congrArg Host.Outcome.next ((State.whenOperational_true ho _).trans (if_pos hc))

/-- An invalid code is a silent no-op, whatever the guard says (R183). -/
theorem exec_drawChar_invalid {x y : Coord} {c : Byte} (s : State) (hc : c.toNat < 32 ∨ 127 < c.toNat) :
    exec (.drawChar x y c) s = .next s := by
  have hinv : ¬validChar c = true := by rw [validChar_iff]; omega
  cases ho : operational s.ds
  case false => exact exec_framebufferOp_guarded rfl ho
  case true => exact congrArg Host.Outcome.next ((State.whenOperational_true ho _).trans (if_neg hinv))

/-- The plots of a character at a pixel: a valid code names every cell of its box, with the glyph's bit there. -/
theorem mem_glyphPlots_at {font : List Host.Cell} {x y px py : Int} {c : Byte} {v : Bool} :
    (⟨px, py, v⟩ : Plot) ∈ glyphPlots font x y c ↔
      (validChar c = true ∧ x ≤ px ∧ px < x + 5 ∧ y ≤ py ∧ py < y + 8) ∧
        v = glyphBit font c (px - x).toNat (py - y).toNat := by
  by_cases hc : validChar c = true
  · rw [mem_glyphPlots hc]
    constructor
    · rintro ⟨col, row, hcol, hrow, hp⟩
      cases hp
      rw [add_sub_cancel_left, add_sub_cancel_left]
      exact ⟨⟨hc, by omega, by omega, by omega, by omega⟩, rfl⟩
    · rintro ⟨⟨-, hx, hx5, hy, hy8⟩, rfl⟩
      refine ⟨(px - x).toNat, (py - y).toNat, ?_, ?_, ?_⟩
      · omega
      · omega
      · congr 1 <;> omega
  · rw [glyphPlots_invalid hc]
    simp [hc]

/-- The pixels after a valid character (R184). -/
theorem pixelAt_glyphPlots {fb : List Host.Cell} (h : FbWf fb) (font : List Host.Cell) (x y : Int) {c : Byte}
    (hc : validChar c = true) {px py : Nat} (hx : px < 128) (hy : py < 128) :
    pixelAt (plotAll fb (glyphPlots font x y c)) px py =
      if x ≤ px ∧ px < x + 5 ∧ y ≤ py ∧ py < y + 8 then glyphBit font c (px - x).toNat (py - y).toNat
      else pixelAt fb px py :=
  pixelAt_plotAll_of_mem_iff h hx hy fun v => by rw [mem_glyphPlots_at, eq_true hc, true_and]

/-- Settles O37: a valid code writes the cells of its box, and nothing else happens. -/
theorem charCells : Obligations.CharCells := fun x y c s =>
  ⟨fun hskip => hskip.elim (exec_framebufferOp_guarded rfl) (exec_drawChar_invalid s), fun ho hlo hhi hwf =>
    have hc := (validChar_iff c).mpr ⟨hlo, hhi⟩
    ⟨_, exec_drawChar x y ho hc, rfl, fun _ _ hx hy => pixelAt_glyphPlots hwf s.font _ _ hc hx hy,
      fun _ ha => read_plotAll_outside hwf _ ha⟩⟩

/-- Settles O38: on a page boundary bit `row` of a byte of the page is the pixel of that row of the box. -/
theorem charAlignedBytes : Obligations.CharAlignedBytes := by
  intro x y c s ho hlo hhi hwf hx hy hpage
  have hxi : x.toInt = x.toNat := BitVec.toInt_eq_toNat_of_lt (by omega)
  have hyi : y.toInt = y.toNat := BitVec.toInt_eq_toNat_of_lt (by omega)
  have hc := (validChar_iff c).mpr ⟨hlo, hhi⟩
  refine ⟨_, exec_drawChar x y ho hc, fun col hcol => BitVec.eq_of_getLsbD_eq fun row hrow => ?_⟩
  have haddr : fbAddr (x.toNat + col) (y.toNat + row) = y.toNat / 8 * 128 + x.toNat + col := by
    simp only [fbAddr, Config.width]
    omega
  have hbit : (y.toNat + row) % 8 = row := by omega
  have hpixel := pixelAt_glyphPlots hwf s.font x.toInt y.toInt hc (px := x.toNat + col) (py := y.toNat + row)
    (by omega) (by omega)
  rw [if_pos (by omega), pixelAt, haddr, hbit] at hpixel
  have hcolumn : ((x.toNat + col : Nat) - x.toInt).toNat = col := by omega
  have hline : ((y.toNat + row : Nat) - y.toInt).toNat = row := by omega
  rwa [hcolumn, hline] at hpixel

/-- A valid character drawn over any other leaves what it leaves alone (R185 (a)). -/
theorem plotAll_glyphPlots_over {fb : List Host.Cell} (h : FbWf fb) (font : List Host.Cell) (x y : Int) (c : Byte)
    {d : Byte} (hd : validChar d = true) :
    plotAll (plotAll fb (glyphPlots font x y c)) (glyphPlots font x y d) = plotAll fb (glyphPlots font x y d) := by
  have hfirst := plotAll_wf h (glyphPlots font x y c)
  refine fb_ext (plotAll_wf hfirst _) (plotAll_wf h _) fun px py hx hy => ?_
  rw [pixelAt_glyphPlots hfirst font x y hd hx hy, pixelAt_glyphPlots h font x y hd hx hy]
  split
  next => rfl
  next hout =>
    refine pixelAt_plotAll_of_not_mem h _ hx hy fun p hp ⟨hpx, hpy⟩ => hout ?_
    rw [← hpx, ← hpy]
    exact glyphPlots_in_box hp

/-- Settles O39: each `draw_char` plots its glyph and keeps the guard and `FONT`. -/
theorem charReplaces : Obligations.CharReplaces := by
  intro x y c d s ho hlo hhi hwf
  obtain ⟨t, ht, htds, htfont, htfb⟩ := execDrawChar_plots x y c ho
  obtain ⟨u, hu, -, -, hufb⟩ := execDrawChar_plots x y d (htds ▸ ho)
  obtain ⟨v, hv, -, -, hvfb⟩ := execDrawChar_plots x y d ho
  refine ⟨t, u, v, ht, hu, hv, ?_⟩
  rw [hufb, hvfb, htfont, htfb, plotAll_glyphPlots_over hwf _ _ _ _ ((validChar_iff d).mpr ⟨hlo, hhi⟩)]

/-! ### Strings (R186) -/

/-- How many of `n` characters, six columns apart from `cur` on, begin left of the framebuffer's width (R187 (g)). -/
def charsInWidth (n : Nat) (cur : Int) : Nat := min n ((128 - cur + 5) / 6).toNat

/-- A cursor left of the width counts its own character and those from the next cursor on. -/
theorem charsInWidth_succ (n : Nat) {cur : Int} (h : cur < 128) :
    charsInWidth (n + 1) cur = charsInWidth n (cur + 6) + 1 := by
  simp only [charsInWidth]
  omega

/-- From the width on no character is counted. -/
theorem charsInWidth_of_ge (n : Nat) {cur : Int} (h : 128 ≤ cur) : charsInWidth n cur = 0 := by
  simp only [charsInWidth]
  omega

/-- `draw_string` past its guard. -/
theorem exec_drawString (x y : Coord) (n : Nat) (codes : List Byte) {s : State} (ho : operational s.ds = true) :
    exec (.drawString x y n codes) s =
      .next (s.plot (stringWalk s.font codes s.draws y.toInt n 0 x.toInt)).leaveText :=
  congrArg Host.Outcome.next (State.whenOperational_true ho _)

/-- The walk of a string plots, one after the other, the characters that begin left of the width (R186). -/
theorem stringWalk_eq_flatMap (font : List Host.Cell) (codes : List Byte) (draw : Nat) (y : Int) (left sk : Nat)
    (cur : Int) :
    stringWalk font codes draw y left sk cur =
      (List.range (charsInWidth left cur)).flatMap fun (k : Nat) =>
        glyphPlots font (cur + 6 * k) y (strRead codes draw (sk + k)) := by
  induction left generalizing sk cur with
  | zero => simp [stringWalk, charsInWidth]
  | succ left ih =>
    rw [stringWalk]
    by_cases hcur : cur ≥ Config.width
    case pos => rw [if_pos hcur, charsInWidth_of_ge _ hcur]; rfl
    case neg =>
      have hstep : cur + (cursorStep : Nat) = cur + 6 := rfl
      rw [if_neg hcur, charsInWidth_succ left (not_le.mp hcur), List.range_succ_eq_map, List.flatMap_cons,
        List.flatMap_map, hstep, ih]
      congr 1
      · simp
      · refine List.flatMap_congr fun k _ => ?_
        congr 1
        · push_cast; ring
        · congr 1; omega

/-- The plots of a string at a pixel, with all its codes in memory: a valid code names the cells of its box, and the
pixel's column tells which character that can be. -/
theorem mem_stringWalk_at {font : List Host.Cell} {codes : List Byte} {draw n : Nat} {x y px py : Int} {v : Bool}
    (hn : n ≤ codes.length) (hpx : px < 128) :
    (⟨px, py, v⟩ : Plot) ∈ stringWalk font codes draw y n 0 x ↔
      (x ≤ px ∧ (px - x) / 6 < n ∧ (px - x) % 6 < 5 ∧ y ≤ py ∧ py < y + 8 ∧
        32 ≤ (codes.getD ((px - x) / 6).toNat 0).toNat ∧ (codes.getD ((px - x) / 6).toNat 0).toNat ≤ 127) ∧
      v = glyphBit font (codes.getD ((px - x) / 6).toNat 0) ((px - x) % 6).toNat (py - y).toNat := by
  have hread : ∀ k < n, strRead codes draw k = codes.getD k 0 := fun k hk => operandRead_eq draw k (hk.trans_le hn)
  simp only [stringWalk_eq_flatMap, List.mem_flatMap, List.mem_range, mem_glyphPlots_at, charsInWidth, Nat.zero_add]
  constructor
  · rintro ⟨k, hk, ⟨hvalid, hx, hx5, hy, hy8⟩, hv⟩
    rw [hread k (by omega)] at hvalid hv
    obtain ⟨hcell, hcol⟩ : ((px - x) / 6).toNat = k ∧ ((px - x) % 6).toNat = (px - (x + 6 * k)).toNat := by omega
    rw [hcell, hcol]
    exact ⟨⟨by omega, by omega, by omega, hy, hy8, (validChar_iff _).mp hvalid⟩, hv⟩
  · rintro ⟨⟨hx, hk, hcol5, hy, hy8, hvalid⟩, hv⟩
    generalize hcell : ((px - x) / 6).toNat = k at hvalid hv
    have hcol : ((px - x) % 6).toNat = (px - (x + 6 * k)).toNat := by omega
    rw [hcol] at hv
    refine ⟨k, by omega, ?_⟩
    rw [hread k (by omega)]
    exact ⟨⟨(validChar_iff _).mpr hvalid, by omega, by omega, hy, hy8⟩, hv⟩

/-- Settles O40: the pixels named by a plot are the cells of the valid codes. -/
theorem stringPixels : Obligations.StringPixels := fun x y n codes s =>
  ⟨exec_framebufferOp_guarded rfl, fun ho hwf hc =>
    ⟨_, exec_drawString x y n codes ho, rfl,
      fun _ _ hx hy => pixelAt_plotAll_of_mem_iff hwf hx hy fun _ =>
        mem_stringWalk_at (of_decide_eq_true hc) (by omega),
      fun _ ha => read_plotAll_outside hwf _ ha⟩⟩

/-- The first codes of a string are read as in the whole string. -/
theorem strRead_take (codes : List Byte) (draw : Nat) {m k : Nat} (h : k < m) :
    strRead (codes.take m) draw k = strRead codes draw k := by
  simp only [strRead, operandRead, List.getElem?_take_of_lt h]

/-- A string plots what its first characters, those that begin left of the width, plot alone (R187 (g)). -/
theorem stringWalk_take_charsInWidth (font : List Host.Cell) (codes : List Byte) (draw : Nat) (y : Int) (n : Nat)
    (x : Int) :
    stringWalk font (codes.take (charsInWidth n x)) draw y (charsInWidth n x) 0 x =
      stringWalk font codes draw y n 0 x := by
  have hcount : charsInWidth (charsInWidth n x) x = charsInWidth n x := by
    simp only [charsInWidth]
    omega
  rw [stringWalk_eq_flatMap, stringWalk_eq_flatMap, hcount]
  refine List.flatMap_congr fun k hk => ?_
  rw [Nat.zero_add, strRead_take codes draw (List.mem_range.mp hk)]

/-- Settles O43: behind the guard neither string draws, past it both plot the same. -/
theorem stringPrefix : Obligations.StringPrefix := by
  intro x y codes s
  cases ho : operational s.ds
  case false => exact ⟨s, s, exec_framebufferOp_guarded rfl ho, exec_framebufferOp_guarded rfl ho, rfl⟩
  case true =>
    exact ⟨_, _, exec_drawString x y _ codes ho, exec_drawString x y _ _ ho,
      congrArg (plotAll s.fb) (stringWalk_take_charsInWidth s.font codes s.draws y.toInt codes.length x.toInt).symm⟩

end Sys2Proof.Machine
end

section
/-! PROOFS. `flush` (45_flush.md): what it emits and what it leaves unchanged (R195), that it gives the same events again
(R196 (d)), and what it emits of a cleared framebuffer (R197). -/

namespace Sys2Proof.Machine

/-- Settles O44: the sixteen pages of `execFlush_eq` past the guard, and the guard of the framebuffer operations. -/
theorem flushEmits : Obligations.FlushEmits := fun _ =>
  ⟨fun ho => ⟨_, execFlush_eq ho, rfl⟩, exec_framebufferOp_guarded rfl⟩

/-- Settles O45: the events depend on `FB` alone, and the first flush leaves `FB` and `DS`; behind the guard there are
no events. -/
theorem flushTwiceSame : Obligations.FlushTwiceSame := by
  intro s
  cases ho : operational s.ds
  case false =>
    have hskip : exec .flush s = .next s := exec_framebufferOp_guarded rfl ho
    exact ⟨s, s, [], hskip, hskip, by simp, by simp⟩
  case true => exact ⟨_, _, (List.range 16).flatMap (pageEvents s.fb), execFlush_eq ho, execFlush_eq ho, rfl, rfl⟩

/-- A page of the cleared framebuffer is sent as 128 zero bytes. -/
theorem pageEvents_clearBytes (p : Nat) :
    pageEvents clearBytes p =
      [.selCmd, .write [0xB0#8 ||| BitVec.ofNat 8 p], .selCmd, .write [0x00], .selCmd, .write [0x10], .selData,
        .write (List.replicate 128 0x00)] := by
  simp only [pageEvents, read_clearBytes, List.map_const', List.length_range]

/-- Settles O47: `clear` leaves `DS` and the trace, so what follows is a flush of the cleared framebuffer. -/
theorem clearThenFlush : Obligations.ClearThenFlush := fun s ho _ =>
  ⟨_, _, exec_clear ho, execFlush_eq ho,
    congrArg (s.trace ++ ·) (List.flatMap_congr fun p _ => pageEvents_clearBytes p)⟩

end Sys2Proof.Machine
end

section
/-! PROOFS. No instruction faults or is refused (60_exceptions.md, R200). -/

namespace Sys2Proof.Machine

/-- Settles O50: each row of `exec` answers the state its operation makes, and an operation behind its guard answers the
state it was given (`exec_runs`). -/
theorem execAlwaysRuns : Obligations.ExecAlwaysRuns := exec_runs

end Sys2Proof.Machine
end
